-- ==== Sys2Proof/Word.lean ====
section
/-! DEFINITION. The plain value types of the machine: bytes, bus words, 64-bit words, 16-byte sequences and permutation
vectors (spec/00_scope.md R8, R10). All values are unsigned. -/

namespace Sys2Proof

/-- A byte, an integer in 0..255 (R8). -/
abbrev Byte := BitVec 8

/-- A 32-bit word of the bus (R8). -/
abbrev Word := BitVec 32

/-- A 64-bit word, as the key deriver draws them (R8). -/
abbrev DWord := BitVec 64

/-- `Bytes` of R10: a finite byte sequence of any length, index 0 first. -/
abbrev Bytes := List Byte

/-- `B16` of R10: exactly 16 bytes, indexed 0..15. -/
abbrev B16 := Vector Byte 16

/-- `Perm` of R10: 8 entries, each an integer in 0..7 (3 bits), indexed 0..7. That the entries are distinct is
`Perm.Valid`, an invariant of the machine and not part of the type. -/
abbrev Perm := Vector (Fin 8) 8

/-- `zeros(16)` of R10. -/
def B16.zeros : B16 := Vector.replicate 16 0#8

/-- The identity ordering `[0,1,2,3,4,5,6,7]` (R20, R111). -/
def Perm.identity : Perm := #v[0, 1, 2, 3, 4, 5, 6, 7]

end Sys2Proof
end

