-- ==== Sys2Proof/Syntax.lean ====
section
/-! DEFINITION. The nine commands of the command set ACORE-1, one constructor per row of spec/opcode_table.json
(spec/30_encoding.md R83). Format Z commands have no operand in the command word; format R commands carry the 16-bit
round count (R81, R82). -/

namespace Sys2Proof

/-- A command (R83). A round count of 0 is a legal encoding whose operand is out of range (R84), so it is a term. -/
inductive Instr where
  /-- `NOP`, opcode 0x00 (spec/44_engine.md R145). -/
  | nop
  /-- `DERIVE`, opcode 0x01 (spec/40_key_deriver.md R102). -/
  | derive
  /-- `PGEN`, opcode 0x02 (spec/41_permutation.md R114). -/
  | pgen
  /-- `RENC`, opcode 0x03 (spec/42_round.md R126). -/
  | renc
  /-- `RDEC`, opcode 0x04 (spec/42_round.md R127). -/
  | rdec
  /-- `KNEXT`, opcode 0x05 (spec/43_key_schedule.md R139). -/
  | knext
  /-- `KPREV`, opcode 0x06 (spec/43_key_schedule.md R140). -/
  | kprev
  /-- `ENC R`, opcode 0x07 (spec/44_engine.md R146). -/
  | enc (rounds : BitVec 16)
  /-- `DEC R`, opcode 0x08 (spec/44_engine.md R147). -/
  | dec (rounds : BitVec 16)
  deriving DecidableEq, Repr

end Sys2Proof
end

