-- ==== Sys2Proof/WellFormed.lean ====
section
/-! DEFINITION. Which commands have their operand in the legal range (spec/00_scope.md R6: R is 0..65535 and the legal
range is 1..65535). Every term of `Instr` has an encoding; the one check left is the round count's. An ill-formed
command is still decoded and run: it raises `BADROUNDS` (spec/60_exceptions.md R168). -/

namespace Sys2Proof

/-- The round count lies in the legal range 1..65535 (R6). -/
def roundsInRange (r : BitVec 16) : Bool := r != 0

/-- The command's operand, where it has one, is in range. -/
def Instr.wellFormed : Instr → Bool
  | .nop => true
  | .derive => true
  | .pgen => true
  | .renc => true
  | .rdec => true
  | .knext => true
  | .kprev => true
  | .enc r => roundsInRange r
  | .dec r => roundsInRange r

/-- `Instr.wellFormed`, as a proposition. -/
abbrev Instr.WellFormed (i : Instr) : Prop := i.wellFormed = true

end Sys2Proof
end

