-- ==== Sys2Proof/Decode.lean ====
section
/-! DEFINITION. The command word: its fields (spec/30_encoding.md R80), the decoder (R84, R90), total on all 2^32 words and
rejecting by name, the encoder (R81, R83), and the opcode map with its match and mask values (R83). -/

namespace Sys2Proof

/-- Field `OP`, bits 7:0 (R80). -/
def fieldOP (w : Word) : Byte := w.extractLsb' 0 8

/-- Field `R`, bits 23:8, an unsigned round count (R80, R82). -/
def fieldR (w : Word) : BitVec 16 := w.extractLsb' 8 16

/-- Field `Z`, bits 31:24, which must be zero (R80). -/
def fieldZ (w : Word) : Byte := w.extractLsb' 24 8

/-- Why a word is no command (R84). All three raise `ILLCMD`. -/
inductive Reject where
  /-- `Z != 0`. -/
  | reservedBitsSet
  /-- `OP` in 0x09..0xFF. -/
  | opcodeUnassigned
  /-- `OP` in 0x00..0x06 and `R != 0`. -/
  | operandNotAllowed
  deriving DecidableEq, Repr

/-- What a command word decodes to. -/
inductive Decoded where
  | command (i : Instr)
  | illegal (why : Reject)
  deriving DecidableEq, Repr

/-- The decode part of R90 on a word's three fields, its checks in the order written there. -/
def decodeFields (z op : Byte) (r : BitVec 16) : Decoded :=
  if z ≠ 0 then .illegal .reservedBitsSet
  else if op > 0x08 then .illegal .opcodeUnassigned
  else if op ≤ 0x06 ∧ r ≠ 0 then .illegal .operandNotAllowed
  else if op = 0x00 then .command .nop
  else if op = 0x01 then .command .derive
  else if op = 0x02 then .command .pgen
  else if op = 0x03 then .command .renc
  else if op = 0x04 then .command .rdec
  else if op = 0x05 then .command .knext
  else if op = 0x06 then .command .kprev
  else if op = 0x07 then .command (.enc r)
  else .command (.dec r)

/-- The decode part of R90, total on all 2^32 words and the same in every state (R85). -/
def decode (w : Word) : Decoded := decodeFields (fieldZ w) (fieldOP w) (fieldR w)

/-- The 32-bit word an opcode-table row of `nbits` bits with bits `w` stands for: bits at and above `nbits` are 0. -/
def tableWord (nbits w : Nat) : Word := BitVec.ofNat 32 (w % 2 ^ nbits)

/-- The command the decoder reads from a row's word, for the host's questions about the opcode table. -/
def decodeTableWord (nbits w : Nat) : Option Instr :=
  match decode (tableWord nbits w) with
  | .command i => some i
  | .illegal _ => none

/-- A word laid out by its fields, `Z = 0` (R80, R81). -/
def wordOfFields (r : BitVec 16) (op : Byte) : Word := 0#8 ++ r ++ op

/-- The command word of a command: the match values of R83, the round count in bits 23:8 for format R. -/
def encode : Instr → Word
  | .nop => wordOfFields 0 0x00
  | .derive => wordOfFields 0 0x01
  | .pgen => wordOfFields 0 0x02
  | .renc => wordOfFields 0 0x03
  | .rdec => wordOfFields 0 0x04
  | .knext => wordOfFields 0 0x05
  | .kprev => wordOfFields 0 0x06
  | .enc r => wordOfFields r 0x07
  | .dec r => wordOfFields r 0x08

/-- A command's mnemonic (R83). -/
def Instr.mnemonic : Instr → String
  | .nop => "NOP"
  | .derive => "DERIVE"
  | .pgen => "PGEN"
  | .renc => "RENC"
  | .rdec => "RDEC"
  | .knext => "KNEXT"
  | .kprev => "KPREV"
  | .enc _ => "ENC"
  | .dec _ => "DEC"

/-- A row of the opcode map (R83): a word `w` selects the command when `w & mask = bits`. -/
structure OpcodeRow where
  mnemonic : String
  bits : Word
  mask : Word
  deriving DecidableEq, Repr

/-- The opcode map (R83), the columns `match` and `mask` copied from the rule. -/
def opcodeRows : List OpcodeRow :=
  [ { mnemonic := "NOP", bits := 0x00000000, mask := 0xFFFFFFFF },
    { mnemonic := "DERIVE", bits := 0x00000001, mask := 0xFFFFFFFF },
    { mnemonic := "PGEN", bits := 0x00000002, mask := 0xFFFFFFFF },
    { mnemonic := "RENC", bits := 0x00000003, mask := 0xFFFFFFFF },
    { mnemonic := "RDEC", bits := 0x00000004, mask := 0xFFFFFFFF },
    { mnemonic := "KNEXT", bits := 0x00000005, mask := 0xFFFFFFFF },
    { mnemonic := "KPREV", bits := 0x00000006, mask := 0xFFFFFFFF },
    { mnemonic := "ENC", bits := 0x00000007, mask := 0xFF0000FF },
    { mnemonic := "DEC", bits := 0x00000008, mask := 0xFF0000FF } ]

end Sys2Proof
end

