-- ==== Sys2Proof/Machine/State.lean ====
section
/-! DEFINITION. The state of Antumbra CORE as plain data: the ten registers of spec/10_state.md R20, and two fields of the
host port, the actions the host has yet to perform and the port's last answer (log entries 2 and 3). The hardware has no
program counter, no instruction memory and no data memory (R33, spec/20_memory.md R50). -/

namespace Sys2Proof.Machine

/-- A latched fault's name (spec/60_exceptions.md R165). Codes 4..15 are never produced, so there is no such value. -/
inductive Cause where
  /-- Code 1, raised by `DERIVE` when `PLEN > 16` (R166). -/
  | keylen
  /-- Code 2, raised by a write to `CMD` of a word that is no command (R167). -/
  | illcmd
  /-- Code 3, raised by `ENC` and `DEC` with `R = 0` (R168). -/
  | badrounds
  deriving DecidableEq, Repr

/-- Register `STATUS` (R30), by its fields. The reserved bits 3:1 and 31:8 read as 0 and ignore writes, so nothing is
stored for them. -/
structure Status where
  /-- Bit 0, `FAULT`: a fault is latched. -/
  fault : Bool
  /-- Bits 7:4, `CAUSE`: `none` is code 0. -/
  cause : Option Cause
  deriving DecidableEq, Repr

/-- Register `CTRL` (R31), by its fields. The reserved bits 31:1 read as 0 and ignore writes. -/
structure Ctrl where
  /-- Bit 0, `IE`: the interrupt output is enabled. -/
  ie : Bool
  deriving DecidableEq, Repr

/-- The names of the register map (spec/20_memory.md R51). `pass w` is `PASSw`, and so on. -/
inductive RegName where
  | cmd
  | status
  | ctrl
  | finfo
  | plen
  | perm
  | iperm
  | pass (w : Fin 4)
  | key (w : Fin 4)
  | sk (w : Fin 4)
  | blk (w : Fin 4)
  deriving DecidableEq, Repr

/-- What the host can do (R52): a read or write transaction of `n` bytes at a byte offset of `REG`, or a reset. -/
inductive HostAction where
  /-- `MemRead(off, n)`. -/
  | read (off : BitVec 8) (n : Nat)
  /-- `MemWrite(off, n, v)`. -/
  | write (off : BitVec 8) (n : Nat) (v : Word)
  /-- `Reset`. -/
  | reset
  deriving DecidableEq, Repr

/-- What the port answers to a transaction (R52). A read that gets `ERR` returns a word that carries no information, so
`err` carries none (spec/93_implementation_defined.md U12). -/
inductive Reply where
  /-- `OKAY` to a write. -/
  | okay
  /-- `OKAY` to a read, with the word read. -/
  | data (v : Word)
  /-- `ERR`: no state has changed. -/
  | err
  deriving DecidableEq, Repr

/-- The whole state. Reset values are those of `State.reset`. -/
structure State where
  /-- `PASS`: the passphrase bytes (R21). Written by the host only. -/
  pass : B16
  /-- `PLEN`: the passphrase length, all 32 bits stored (R29). Written by the host only. -/
  plen : Word
  /-- `KEY`: the working key (R22). Written by the host, `DERIVE`, `KNEXT`, `KPREV`. -/
  key : B16
  /-- `SK`: the subkey the most recent round consumed (R23). Read only to the host. -/
  sk : B16
  /-- `BLK`: the data block (R24). Written by the host and the rounds. -/
  blk : B16
  /-- `PERM`: the permutation vector most recently generated (R26). Read only to the host. -/
  perm : Perm
  /-- `IPERM`: the inverse of `PERM` (R27). Read only to the host. -/
  iperm : Perm
  /-- `STATUS`: the fault latch and cause (R30). -/
  status : Status
  /-- `CTRL`: the interrupt enable (R31). Written by the host only. -/
  ctrl : Ctrl
  /-- `FINFO`: the value recorded at fault entry (R31). Read only to the host. -/
  finfo : Word
  /-- The MODEL'S OWN field, not a register: the actions the host has yet to perform, the next one first (log entry 2). -/
  pending : List HostAction
  /-- The MODEL'S OWN field, not a register: what the port last answered, the outputs `rdata` and `resp` of
  spec/70_reset_and_hazards.md R189; `none` before the first answer after reset (log entry 3). -/
  reply : Option Reply
  deriving DecidableEq, Repr

/-- Nothing stops this machine: its three faults are latched in `STATUS` and the machine goes on
(spec/60_exceptions.md R173), a bus error is a reply (R169), and there is no state from which no host action is possible
(spec/93_implementation_defined.md part 1). So no step ends in a fault, and the type has no constructor. Safe. -/
inductive Fault where
  deriving DecidableEq, Repr

/-- The one reason a step could be refused. -/
inductive Refusal where
  /-- Raised by an arm of `exec` whose command has no meaning yet. No arm does: every command is modelled. Safe. -/
  | notModelled (mnemonic : String)
  deriving DecidableEq, Repr

/-- The machine right after reset (R36): every register at the value of R20's last column, the identity vector in `PERM`
and `IPERM`; no host action waiting and nothing answered yet. -/
def State.reset : State where
  pass := B16.zeros
  plen := 0
  key := B16.zeros
  sk := B16.zeros
  blk := B16.zeros
  perm := Perm.identity
  iperm := Perm.identity
  status := { fault := false, cause := none }
  ctrl := { ie := false }
  finfo := 0
  pending := []
  reply := none

end Sys2Proof.Machine
end

