-- ==== Sys2Proof/Machine/Flags.lean ====
section
/-! DEFINITION. The flags: the one flag `STATUS.FAULT` with `STATUS.CAUSE` (spec/10_state.md R30, spec/60_exceptions.md
R165), `CTRL.IE` (R31), their bus words, and the interrupt output (R177). No command sets any other flag. -/

namespace Sys2Proof.Machine

/-- The cause code of a fault (R165). -/
def Cause.code : Cause → Word
  | .keylen => 1
  | .illcmd => 2
  | .badrounds => 3

/-- `STATUS.CAUSE` as a number: 0 when no fault is latched (R165). -/
def causeCode : Option Cause → Word
  | none => 0
  | some c => c.code

/-- What a read of `STATUS` gives: `FAULT` in bit 0, `CAUSE` in bits 7:4, the reserved bits 0 (R30). -/
def statusWord (st : Status) : Word := (if st.fault then 1#32 else 0#32) ||| (causeCode st.cause <<< 4)

/-- What a read of `CTRL` gives: `IE` in bit 0, the reserved bits 0 (R31). -/
def ctrlWord (c : Ctrl) : Word := if c.ie then 1#32 else 0#32

/-- What a write of `v` to `CTRL` stores: bit 0 only (R31). -/
def ctrlOfWord (v : Word) : Ctrl := { ie := v.getLsbD 0 }

/-- Whether a word written to `STATUS` asks to clear the fault: bits 31:1 are ignored (R175). -/
def clearsFault (v : Word) : Bool := v.getLsbD 0

/-- The `FAULT` and `CAUSE` fields after fault entry (R173). -/
def faultedStatus (c : Cause) : Status := { fault := true, cause := some c }

/-- The `FAULT` and `CAUSE` fields with nothing latched (R175). -/
def clearStatus : Status := { fault := false, cause := none }

/-- The interrupt output, `irq = STATUS.FAULT & CTRL.IE` at all times (R177). -/
def irq (s : State) : Bool := s.status.fault && s.ctrl.ie

end Sys2Proof.Machine
end

