-- ==== Sys2Proof/Config.lean ====
section
/-! DEFINITION. The two OPEN parameters of the hardware (spec/00_scope.md R6, R7): the hash and generator of the key
deriver, and the hash, generator and draw method of the permutation generator. Nothing else of the hardware is open.

Every function of the model that depends on them takes a `Profile` as its argument, so that a law can be stated for
every instance and the reference profile P0 can be tested. The machine itself runs at `Config.profile`, whose two
components are constants WITHOUT A BODY: nothing can be proved of their values (log entry 1). -/

namespace Sys2Proof

/-- The seven draws of one shuffle, `d_i` for `i` = 7 down to 1, each in `[0, i]` by its type (R110). -/
structure Draws where
  d7 : Fin 8
  d6 : Fin 7
  d5 : Fin 6
  d4 : Fin 5
  d3 : Fin 4
  d2 : Fin 3
  d1 : Fin 2
  deriving DecidableEq, Repr, Inhabited

/-- One instance of the two OPEN parameters: total functions of their operand alone (R7, R100, R110). It is
configuration, not state. -/
structure Profile where
  /-- `KdfWords` (R100): passphrase bytes to the two 64-bit words `(w0, w1)`. -/
  kdfWords : Bytes → DWord × DWord
  /-- `PermDraws` (R110): 16 key bytes to the seven draws. -/
  permDraws : B16 → Draws

namespace Config

/-- `KdfWords` of the hardware at hand (R100, decision D15): an uninterpreted total function. -/
opaque kdfWords : Bytes → DWord × DWord

/-- `PermDraws` of the hardware at hand (R110, decision D15): an uninterpreted total function, its range constraint
`d_i <= i` carried by the type `Draws`. -/
opaque permDraws : B16 → Draws

/-- The instance the machine runs at. -/
def profile : Profile := { kdfWords := kdfWords, permDraws := permDraws }

end Config

end Sys2Proof
end

