-- ==== Sys2Proof/Machine/Bits.lean ====
section
/-! DEFINITION. The pure functions on bytes, bits and permutation vectors: the primitives of spec/00_scope.md R15 to R17,
the bit reordering of spec/42_round.md R120 and R121, and the shuffle, inverse and generator of spec/41_permutation.md
R111 to R113. Bit `i` of a byte has weight 2^i (R9). -/

namespace Sys2Proof.Machine

/-- `rotl3(b)` (R15). -/
def rotl3 (b : Byte) : Byte := (b <<< 3) ||| (b >>> 5)

/-- `rotr3(b)` (R16). -/
def rotr3 (b : Byte) : Byte := (b >>> 3) ||| (b <<< 5)

/-- `map16(f, s)` (R17). -/
def map16 (f : Byte → Byte) (s : B16) : B16 := Vector.ofFn fun i => f s[i]

/-- `xor16(s, t)` (R17). -/
def xor16 (s t : B16) : B16 := Vector.ofFn fun i => s[i] ^^^ t[i]

/-- Byte `k` of a 64-bit word, the least significant byte being byte 0: `(w >> 8k) & 0xFF` (spec/40_key_deriver.md R101). -/
def byteOfDWord (w : DWord) (k : Nat) : Byte := (w >>> (8 * k)).setWidth 8

/-- The indices 0..7, in order. -/
def indices8 : List (Fin 8) := [0, 1, 2, 3, 4, 5, 6, 7]

/-- `bitperm(P, b)` (R120): output bit `i` is input bit `P[i]`. -/
def bitperm (p : Perm) (b : Byte) : Byte :=
  indices8.foldl (fun o i => o ||| (((b >>> p[i].val) &&& 1#8) <<< i.val)) 0#8

/-- `bitunperm(P, b)` (R121): output bit `P[i]` is input bit `i`. -/
def bitunperm (p : Perm) (b : Byte) : Byte :=
  indices8.foldl (fun o i => o ||| (((b >>> i.val) &&& 1#8) <<< p[i].val)) 0#8

/-- Swap positions `i` and `j`; no change if `j = i` (R111). -/
def swapEntries (p : Perm) (i j : Fin 8) : Perm := (p.set i p[j]).set j p[i]

/-- `shuffle(d)` (R111): from the identity, swap positions `i` and `d_i` for `i` from 7 down to 1. -/
def shuffle (d : Draws) : Perm :=
  let p7 := swapEntries Perm.identity 7 d.d7
  let p6 := swapEntries p7 6 (d.d6.castLE (by decide))
  let p5 := swapEntries p6 5 (d.d5.castLE (by decide))
  let p4 := swapEntries p5 4 (d.d4.castLE (by decide))
  let p3 := swapEntries p4 3 (d.d3.castLE (by decide))
  let p2 := swapEntries p3 2 (d.d2.castLE (by decide))
  swapEntries p2 1 (d.d1.castLE (by decide))

/-- `invert(p)` (R113): `q[p[i]] <- i` for `i` from 0 to 7. When `p` has 8 distinct entries every entry of `q` is written
exactly once, so what `q` starts from has no effect on the result (log entry 6). -/
def invert (p : Perm) : Perm :=
  indices8.foldl (fun q i => q.set p[i].val i p[i].isLt) Perm.identity

/-- `generate(k)` (R112), at an instance of the OPEN parameters. -/
def generate (c : Profile) (k : B16) : Perm := shuffle (c.permDraws k)

end Sys2Proof.Machine

namespace Sys2Proof

/-- The vector is a permutation of 0..7: 8 distinct entries (spec/10_state.md R28). -/
abbrev Perm.Valid (p : Perm) : Prop := p.toList.Nodup

/-- `q` is the inverse of `p`: `q[p[i]] = i` for all `i` (R27, R113). -/
abbrev Perm.Inverse (p q : Perm) : Prop := ∀ i : Fin 8, q[p[i]] = i

end Sys2Proof
end

