-- ==== Sys2Proof/Machine/Operands.lean ====
section
/-! DEFINITION. The forms in which operands are taken: the implicit passphrase operand of `DERIVE`
(spec/40_key_deriver.md R102), the round count of the command word (spec/30_encoding.md R82), the four bus words of a
16-byte register (spec/20_memory.md R56) and the bus word of a permutation vector (spec/10_state.md R26). -/

namespace Sys2Proof.Machine

/-- `PASS[0 .. PLEN)`: the first `PLEN` bytes, in index order (R102). -/
def passphrase (s : State) : Bytes := s.pass.toList.take s.plen.toNat

/-- The round-count operand as a number, unsigned, not scaled, not biased (R82). -/
def roundCount (r : BitVec 16) : Nat := r.toNat

/-- Word `Xw` of a 16-byte register: bytes `4w` to `4w+3`, the lowest index in the least significant bits (R56). -/
def wordOf (x : B16) (w : Fin 4) : Word :=
  x[4 * w.val].setWidth 32 ||| (x[4 * w.val + 1].setWidth 32 <<< 8) ||| (x[4 * w.val + 2].setWidth 32 <<< 16)
    ||| (x[4 * w.val + 3].setWidth 32 <<< 24)

/-- A write of word `Xw`: the four bytes change, the other twelve keep their values (R56). -/
def withWord (x : B16) (w : Fin 4) (v : Word) : B16 :=
  (((x.set (4 * w.val) (v.extractLsb' 0 8)).set (4 * w.val + 1) (v.extractLsb' 8 8)).set (4 * w.val + 2)
    (v.extractLsb' 16 8)).set (4 * w.val + 3) (v.extractLsb' 24 8)

/-- The bus word of a permutation vector: entry `i` in bits `[4i+2 : 4i]`, bit `4i+3` zero (R26). -/
def wordOfPerm (p : Perm) : Word :=
  indices8.foldl (fun o i => o ||| (BitVec.ofNat 32 p[i].val <<< (4 * i.val))) 0#32

end Sys2Proof.Machine
end

