-- ==== Sys2Proof/Machine/Ops.lean ====
section
/-! DEFINITION. The named operations the meanings and the bus share: fault entry and the return from a fault, the writes of
the result registers, and the two fields of the host port. -/

namespace Sys2Proof.Machine

/-- `raise F(info)`: fault entry (spec/60_exceptions.md R173). `FAULT <- 1`, `CAUSE <- code`, `FINFO <- info`, and nothing
else: no program counter is saved, no mode changes and control goes nowhere. -/
def raiseFault (c : Cause) (info : Word) (s : State) : State :=
  { s with status := faultedStatus c, finfo := info }

/-- The return from a fault (R175): `FAULT <- 0`, `CAUSE <- 0`, `FINFO <- 0`, and nothing else. -/
def clearFault (s : State) : State := { s with status := clearStatus, finfo := 0 }

/-- Write the working key. -/
def withKey (k : B16) (s : State) : State := { s with key := k }

/-- Write `PERM` with a vector and `IPERM` with its inverse, together (spec/10_state.md R27, spec/41_permutation.md R114). -/
def recordPerm (p : Perm) (s : State) : State := { s with perm := p, iperm := invert p }

/-- Write the results of the rounds: the output block, the subkey the last round consumed, and that round's vector with its
inverse (R23, R24, R26, R27). -/
def recordRound (blk sk : B16) (p : Perm) (s : State) : State :=
  recordPerm p { s with blk := blk, sk := sk }

/-- Put an answer on the port. -/
def withReply (r : Reply) (s : State) : State := { s with reply := some r }

/-- Leave the host with these actions still to perform. -/
def withPending (as : List HostAction) (s : State) : State := { s with pending := as }

/-- The host action `Reset` (spec/70_reset_and_hazards.md R190): every register takes its reset value, whatever ran before;
no answer is on the port. What the host will do next is the host's and is kept. -/
def resetMachine (s : State) : State := withPending s.pending State.reset

end Sys2Proof.Machine
end

