-- ==== Sys2Proof/Machine/KeySchedule.lean ====
section
/-! DEFINITION. The Key Schedule (spec/43_key_schedule.md): one step forward, one step backward, the key of round `r`, and
the commands `KNEXT` and `KPREV`. -/

namespace Sys2Proof.Machine

/-- `nextRoundKey(k)` (R135): every byte rotated left by 3. -/
def nextRoundKey (k : B16) : B16 := map16 rotl3 k

/-- `previousRoundKey(k)` (R136): every byte rotated right by 3. -/
def previousRoundKey (k : B16) : B16 := map16 rotr3 k

/-- The key after `n` steps forward. -/
def keyForward (k : B16) : Nat → B16
  | 0 => k
  | n + 1 => nextRoundKey (keyForward k n)

/-- The key after `n` steps backward. -/
def keyBackward (k : B16) : Nat → B16
  | 0 => k
  | n + 1 => previousRoundKey (keyBackward k n)

/-- `roundKeyFor(k, r)` (R137), for `r >= 1`; not defined for `r = 0`. -/
def roundKeyFor (k : B16) : Nat → Option B16
  | 0 => none
  | n + 1 => some (keyForward k n)

/-- `KNEXT` (R139). Its effect depends on no parameter. -/
def execKnext (s : State) : Host.Outcome State Fault Refusal := .next (withKey (nextRoundKey s.key) s)

/-- `KPREV` (R140). -/
def execKprev (s : State) : Host.Outcome State Fault Refusal := .next (withKey (previousRoundKey s.key) s)

end Sys2Proof.Machine
end

