-- ==== Sys2Proof/Machine/Round.lean ====
section
/-! DEFINITION. The Block Round Transformation (spec/42_round.md): one round on one block, its inverse, and the commands
`RENC` and `RDEC`. -/

namespace Sys2Proof.Machine

/-- One lane of a round (R122, R129): xor key, rotate left by 3, reorder the bits, xor key. -/
def laneE (p : Perm) (k b : Byte) : Byte := bitperm p (rotl3 (b ^^^ k)) ^^^ k

/-- One lane of the inverse round (R124): xor key, undo the reordering, rotate right by 3, xor key. -/
def laneD (p : Perm) (k b : Byte) : Byte := rotr3 (bitunperm p (b ^^^ k)) ^^^ k

/-- `roundE(P, k, b)` (R122). -/
def roundE (p : Perm) (k b : B16) : B16 := Vector.ofFn fun i => laneE p k[i] b[i]

/-- `roundD(P, k, c)` (R124). -/
def roundD (p : Perm) (k b : B16) : B16 := Vector.ofFn fun i => laneD p k[i] b[i]

/-- `roundEncrypt(k, b)` (R123): the vector is generated from the same key that is xored. -/
def roundEncrypt (c : Profile) (k b : B16) : B16 := roundE (generate c k) k b

/-- `roundDecrypt(k, c)` (R125). -/
def roundDecrypt (c : Profile) (k b : B16) : B16 := roundD (generate c k) k b

/-- `RENC` at an instance of the OPEN parameters (R126). -/
def rencAt (c : Profile) (s : State) : State :=
  recordRound (roundEncrypt c s.key s.blk) s.key (generate c s.key) s

/-- `RDEC` at an instance of the OPEN parameters (R127). `PERM` holds the forward vector, as after `RENC`. -/
def rdecAt (c : Profile) (s : State) : State :=
  recordRound (roundDecrypt c s.key s.blk) s.key (generate c s.key) s

/-- `RENC` (R126). -/
def execRenc (s : State) : Host.Outcome State Fault Refusal := .next (rencAt Config.profile s)

/-- `RDEC` (R127). -/
def execRdec (s : State) : Host.Outcome State Fault Refusal := .next (rdecAt Config.profile s)

end Sys2Proof.Machine
end

