-- ==== Sys2Proof/Machine/Engine.lean ====
section
/-! DEFINITION. The multi-round engine (spec/44_engine.md): the rounds of one block, and the commands `NOP`, `ENC` and
`DEC`. The round counter lives inside one command and is no register (spec/10_state.md R33). -/

namespace Sys2Proof.Machine

/-- The `while rc > 1` loop of `encBlock` (R148), `n` iterations to go: step the key forward, one round. -/
def encLoop (c : Profile) : Nat → B16 → B16 → B16 × B16
  | 0, sk, x => (x, sk)
  | n + 1, sk, x => encLoop c n (nextRoundKey sk) (roundEncrypt c (nextRoundKey sk) x)

/-- The `while rc > 1` loop of `decBlock` (R148). -/
def decLoop (c : Profile) : Nat → B16 → B16 → B16 × B16
  | 0, sk, x => (x, sk)
  | n + 1, sk, x => decLoop c n (previousRoundKey sk) (roundDecrypt c (previousRoundKey sk) x)

/-- `encBlock(k, b, R)` (R148): the final block and the last subkey used. Not defined for `R = 0` (R155). -/
def encBlock (c : Profile) (k b : B16) : Nat → Option (B16 × B16)
  | 0 => none
  | n + 1 => some (encLoop c n k (roundEncrypt c k b))

/-- `decBlock(k, c, R)` (R148). Not defined for `R = 0` (R155). -/
def decBlock (c : Profile) (k b : B16) : Nat → Option (B16 × B16)
  | 0 => none
  | n + 1 => some (decLoop c n k (roundDecrypt c k b))

/-- What `ENC` and `DEC` do with the outcome of the rounds (R146, R147): `BADROUNDS` with the command word where there is
none (`R = 0`), else the block, the last subkey, and the vector of that subkey. -/
def finishRounds (c : Profile) (w : Word) (r : Option (B16 × B16)) (s : State) : State :=
  match r with
  | none => raiseFault .badrounds w s
  | some (x, sk) => recordRound x sk (generate c sk) s

/-- `ENC R` at an instance of the OPEN parameters (R146). -/
def encAt (c : Profile) (r : BitVec 16) (s : State) : State :=
  finishRounds c (encode (.enc r)) (encBlock c s.key s.blk (roundCount r)) s

/-- `DEC R` at an instance of the OPEN parameters (R147). -/
def decAt (c : Profile) (r : BitVec 16) (s : State) : State :=
  finishRounds c (encode (.dec r)) (decBlock c s.key s.blk (roundCount r)) s

/-- `NOP` (R145): nothing. -/
def execNop (s : State) : Host.Outcome State Fault Refusal := .next s

/-- `ENC R` (R146). -/
def execEnc (r : BitVec 16) (s : State) : Host.Outcome State Fault Refusal := .next (encAt Config.profile r s)

/-- `DEC R` (R147). -/
def execDec (r : BitVec 16) (s : State) : Host.Outcome State Fault Refusal := .next (decAt Config.profile r s)

end Sys2Proof.Machine
end

