-- ==== Sys2Proof/Machine/KeyDeriver.lean ====
section
/-! DEFINITION. The Key Deriver (spec/40_key_deriver.md): the function `derive` and the command `DERIVE`. -/

namespace Sys2Proof.Machine

/-- Steps 3 to 5 of R101: byte `i` of the buffer is byte `i mod 8` of `w0` (i < 8) or of `w1` (i >= 8), least significant
byte first; then the passphrase is xored in, index by index, and the rest is left as drawn. -/
def keyFromWords (ws : DWord × DWord) (p : Bytes) : B16 :=
  Vector.ofFn fun i =>
    let drawn := byteOfDWord (if i.val < 8 then ws.1 else ws.2) (i.val % 8)
    match p[i.val]? with
    | some b => drawn ^^^ b
    | none => drawn

/-- `derive(p)` (R101): defined when `len(p) <= 16`; `none` is the source's `InvalidKeyLength`. -/
def derive (c : Profile) (p : Bytes) : Option B16 :=
  if p.length ≤ 16 then some (keyFromWords (c.kdfWords p) p) else none

/-- `DERIVE` at an instance of the OPEN parameters (R102): `KEYLEN` when `PLEN > 16`, compared as an unsigned 32-bit number;
else `KEY <- derive(PASS[0 .. PLEN))`. -/
def deriveAt (c : Profile) (s : State) : State :=
  if s.plen > 16 then raiseFault .keylen s.plen s
  else withKey (keyFromWords (c.kdfWords (passphrase s)) (passphrase s)) s

/-- `DERIVE` (R102). -/
def execDerive (s : State) : Host.Outcome State Fault Refusal := .next (deriveAt Config.profile s)

end Sys2Proof.Machine
end

