-- ==== Sys2Proof/Machine/Permutation.lean ====
section
/-! DEFINITION. The Permutation Generator's command `PGEN` (spec/41_permutation.md); its functions are in Bits.lean. -/

namespace Sys2Proof.Machine

/-- `PGEN` at an instance of the OPEN parameters (R114): `PERM <- generate(KEY)`, `IPERM` its inverse. -/
def pgenAt (c : Profile) (s : State) : State := recordPerm (generate c s.key) s

/-- `PGEN` (R114). -/
def execPgen (s : State) : Host.Outcome State Fault Refusal := .next (pgenAt Config.profile s)

end Sys2Proof.Machine
end

