-- ==== Sys2Proof/Machine/Dispatch.lean ====
section
/-! DEFINITION. One arm per command (spec/30_encoding.md R90). -/

namespace Sys2Proof.Machine

def exec (i : Instr) (s : State) : Host.Outcome State Fault Refusal :=
  match i with
  | .nop => Sys2Proof.Machine.execNop s
  | .derive => Sys2Proof.Machine.execDerive s
  | .pgen => Sys2Proof.Machine.execPgen s
  | .renc => Sys2Proof.Machine.execRenc s
  | .rdec => Sys2Proof.Machine.execRdec s
  | .knext => Sys2Proof.Machine.execKnext s
  | .kprev => Sys2Proof.Machine.execKprev s
  | .enc rounds => Sys2Proof.Machine.execEnc rounds s
  | .dec rounds => Sys2Proof.Machine.execDec rounds s

end Sys2Proof.Machine
end

