-- ==== Sys2Proof/Machine/Bus.lean ====
section
/-! DEFINITION. The host port: the register map (spec/20_memory.md R51), access rights (R55), what a read gives and a write
stores (R56, R60), what a write to `CMD` does (spec/30_encoding.md R90), and one whole host action (R52). A transaction is
atomic and complete before the next (R59, R60). -/

namespace Sys2Proof.Machine

/-- The register map (R51): the register at a byte offset, `none` for the unmapped 0x14 and 0x60..0xFF and for every offset
that is no multiple of 4. -/
def regAt (off : BitVec 8) : Option RegName :=
  match off.toNat with
  | 0x00 => some .cmd
  | 0x04 => some .status
  | 0x08 => some .ctrl
  | 0x0C => some .finfo
  | 0x10 => some .plen
  | 0x18 => some .perm
  | 0x1C => some .iperm
  | 0x20 => some (.pass 0)
  | 0x24 => some (.pass 1)
  | 0x28 => some (.pass 2)
  | 0x2C => some (.pass 3)
  | 0x30 => some (.key 0)
  | 0x34 => some (.key 1)
  | 0x38 => some (.key 2)
  | 0x3C => some (.key 3)
  | 0x40 => some (.sk 0)
  | 0x44 => some (.sk 1)
  | 0x48 => some (.sk 2)
  | 0x4C => some (.sk 3)
  | 0x50 => some (.blk 0)
  | 0x54 => some (.blk 1)
  | 0x58 => some (.blk 2)
  | 0x5C => some (.blk 3)
  | _ => none

/-- The offset of a register (R51). -/
def offsetOf : RegName → BitVec 8
  | .cmd => 0x00
  | .status => 0x04
  | .ctrl => 0x08
  | .finfo => 0x0C
  | .plen => 0x10
  | .perm => 0x18
  | .iperm => 0x1C
  | .pass w => 0x20 + BitVec.ofNat 8 (4 * w.val)
  | .key w => 0x30 + BitVec.ofNat 8 (4 * w.val)
  | .sk w => 0x40 + BitVec.ofNat 8 (4 * w.val)
  | .blk w => 0x50 + BitVec.ofNat 8 (4 * w.val)

/-- The one legal access: 4 bytes at a multiple of 4 (R53). -/
def legalAccess (off : BitVec 8) (n : Nat) : Bool := n == 4 && off.toNat % 4 == 0

/-- The word a read of a register gives; `none` for the write-only `CMD` (R55). No read changes anything (R60). -/
def regRead (r : RegName) (s : State) : Option Word :=
  match r with
  | .cmd => none
  | .status => some (statusWord s.status)
  | .ctrl => some (ctrlWord s.ctrl)
  | .finfo => some s.finfo
  | .plen => some s.plen
  | .perm => some (wordOfPerm s.perm)
  | .iperm => some (wordOfPerm s.iperm)
  | .pass w => some (wordOf s.pass w)
  | .key w => some (wordOf s.key w)
  | .sk w => some (wordOf s.sk w)
  | .blk w => some (wordOf s.blk w)

/-- What a write to `STATUS` does (R175): the fault is cleared when one is latched and bit 0 of the word is 1; any other
write changes nothing. -/
def statusWrite (v : Word) (s : State) : State :=
  if s.status.fault && clearsFault v then clearFault s else s

/-- What a write to a register other than `CMD` does; `none` where the register is read only (R55). -/
def regWrite (r : RegName) (v : Word) (s : State) : Option State :=
  match r with
  | .cmd => none
  | .status => some (statusWrite v s)
  | .ctrl => some { s with ctrl := ctrlOfWord v }
  | .finfo => none
  | .plen => some { s with plen := v }
  | .perm => none
  | .iperm => none
  | .pass w => some { s with pass := withWord s.pass w v }
  | .key w => some { s with key := withWord s.key w v }
  | .sk _ => none
  | .blk w => some { s with blk := withWord s.blk w v }

/-- What a write of word `w` to `CMD` does, in full (R90): refused while a fault is latched (R174); an illegal word raises
`ILLCMD` (R167); else the command runs. The response is `OKAY` even when the command faults (R55). -/
def cmdWrite (w : Word) (s : State) : Host.Outcome State Fault Refusal :=
  if s.status.fault then .next (withReply .err s)
  else
    match decode w with
    | .illegal _ => .next (raiseFault .illcmd w (withReply .okay s))
    | .command i => exec i (withReply .okay s)

/-- The answer to a read transaction (R52 to R55). -/
def readReply (off : BitVec 8) (n : Nat) (s : State) : Reply :=
  if legalAccess off n then
    match regAt off with
    | none => .err
    | some r =>
      match regRead r s with
      | none => .err
      | some v => .data v
  else .err

/-- A write transaction (R52 to R55): an `ERR` changes no register. -/
def busWrite (off : BitVec 8) (n : Nat) (v : Word) (s : State) : Host.Outcome State Fault Refusal :=
  if legalAccess off n then
    match regAt off with
    | none => .next (withReply .err s)
    | some .cmd => cmdWrite v s
    | some r =>
      match regWrite r v s with
      | none => .next (withReply .err s)
      | some t => .next (withReply .okay t)
  else .next (withReply .err s)

/-- One host action (R52). -/
def transact (a : HostAction) (s : State) : Host.Outcome State Fault Refusal :=
  match a with
  | .read off n => .next (withReply (readReply off n s) s)
  | .write off n v => busWrite off n v s
  | .reset => .next (resetMachine s)

/-- One step of the machine (spec/00_scope.md R2): the host's next action. With no action to perform the hardware waits for
transactions and nothing changes, since it never acts on its own (R36, R60). -/
def stepAction (s : State) : Host.Outcome State Fault Refusal :=
  match s.pending with
  | [] => .next s
  | a :: rest => transact a (withPending rest s)

/-- `s` with its next action the write of command word `w` to `CMD`, the port ready to accept it: a latched fault, which
would refuse the command, is cleared as R175 does (log entry 4). -/
def presentCommand (w : Word) (s : State) : State :=
  withPending (.write (offsetOf .cmd) 4 w :: s.pending) (if s.status.fault then clearFault s else s)

end Sys2Proof.Machine
end

