-- ==== Sys2Proof/Machine/Step.lean ====
section
/-! DEFINITION. One step: one host transaction or one reset (spec/00_scope.md R2). -/

namespace Sys2Proof.Machine

/-- One step (R2): the host's next action, taken whole. -/
def step (s : State) : Host.Outcome State Fault Refusal := stepAction s

/-- `s` with an opcode-table row's word waiting as the host's next write to `CMD` (log entry 4). -/
def State.withFetchWord (s : State) (nbits w : Nat) : State := presentCommand (tableWord nbits w) s

end Sys2Proof.Machine
end

