-- ==== Sys2Proof/Machine/Port.lean ====
section
/-! DEFINITION. The ports of spec/70_reset_and_hazards.md R189, at the transaction level: what the inputs ask for, and what
the outputs show between transactions. The clock and the signal protocol are not specified and are not modelled. -/

namespace Sys2Proof.Machine

/-- The input ports but `clk` (R189). -/
structure PortIn where
  /-- `rst_n`, active low. -/
  rstN : Bool
  sel : Bool
  write : Bool
  size : BitVec 2
  addr : BitVec 8
  wdata : Word
  deriving DecidableEq, Repr

/-- The number of bytes the port `size` asks for: 1, 2 or 4 for the values 0, 1, 2 (R189). For the value 3 the spec names no
size; any number but 4 gives the same refusal (log entry 5). -/
def bytesOfSize (size : BitVec 2) : Nat := 2 ^ size.toNat

/-- The host action on the input ports: a reset when `rst_n` is low, else a transaction when `sel` is high (R189). -/
def PortIn.action (p : PortIn) : Option HostAction :=
  if p.rstN = false then some .reset
  else if p.sel = false then none
  else if p.write then some (.write p.addr (bytesOfSize p.size) p.wdata)
  else some (.read p.addr (bytesOfSize p.size))

/-- `s` with the action on the input ports added to what the host has yet to perform. -/
def offerPort (p : PortIn) (s : State) : State :=
  match p.action with
  | none => s
  | some a => withPending (s.pending ++ [a]) s

/-- The output ports as the last transaction left them (R189): `resp` and `rdata` only when a transaction has completed since
reset, `rdata` only with `resp` = `OKAY` of a read. -/
structure PortOut where
  /-- `ready`: the transaction is complete. -/
  ready : Bool
  /-- `resp`: `some true` is 1, `ERR`; `some false` is 0, `OKAY`. -/
  resp : Option Bool
  rdata : Option Word
  irq : Bool
  deriving DecidableEq, Repr

/-- `resp` of an answer: 0 = `OKAY`, 1 = `ERR` (R189). -/
def respOf : Reply → Bool
  | .okay => false
  | .data _ => false
  | .err => true

/-- `rdata` of an answer. -/
def rdataOf : Reply → Option Word
  | .okay => none
  | .data v => some v
  | .err => none

/-- The output ports (R189). -/
def portOut (s : State) : PortOut where
  ready := s.reply.isSome
  resp := s.reply.map respOf
  rdata := s.reply.bind rdataOf
  irq := irq s

end Sys2Proof.Machine
end

