-- ==== Sys2Proof/Machine/Message.lean ====
section
/-! DEFINITION. The message-level reference functions of the source (spec/44_engine.md R150, R151): padding, partition into
blocks, `encrypt` and `decrypt`. The hardware runs them one block at a time; the host partitions and pads (R152). -/

namespace Sys2Proof.Machine

/-- `pad16(m)` (R150): zero bytes up to a multiple of 16. -/
def pad16 (m : Bytes) : Bytes := m ++ List.replicate ((16 - m.length % 16) % 16) 0#8

/-- `nblocks(m) = ceil(len(m) / 16)` (R150). -/
def nblocks (m : Bytes) : Nat := (m.length + 15) / 16

/-- `block(m, n) = pad16(m)[16n .. 16n + 16)` (R150), for `n < nblocks(m)`, where every index falls inside `pad16(m)`. -/
def blockAt (m : Bytes) (n : Nat) : B16 := Vector.ofFn fun i => (pad16 m).getD (16 * n + i.val) 0#8

/-- The blocks of a message, in message order (R150). -/
def blocksOf (m : Bytes) : List B16 := (List.range (nblocks m)).map (blockAt m)

/-- The bytes of a sequence of blocks, concatenated in order (R151). -/
def bytesOfBlocks (bs : List B16) : Bytes := bs.flatMap fun b => b.toList

/-- One round over a whole message (R151). -/
def encryptOnce (c : Profile) (k : B16) (m : Bytes) : Bytes := bytesOfBlocks ((blocksOf m).map (roundEncrypt c k))

/-- One inverse round over a whole message (R151). -/
def decryptOnce (c : Profile) (k : B16) (m : Bytes) : Bytes := bytesOfBlocks ((blocksOf m).map (roundDecrypt c k))

/-- `encrypt` with `n` rounds to come after the first (R151), round by round over the whole message. -/
def encryptMore (c : Profile) : Nat → B16 → Bytes → Bytes
  | 0, k, m => encryptOnce c k m
  | n + 1, k, m => encryptMore c n (nextRoundKey k) (encryptOnce c k m)

/-- `decrypt` with `n` rounds to come after the first (R151). -/
def decryptMore (c : Profile) : Nat → B16 → Bytes → Bytes
  | 0, k, m => decryptOnce c k m
  | n + 1, k, m => decryptMore c n (previousRoundKey k) (decryptOnce c k m)

/-- `encrypt(k, m, R)` (R151). Not defined for `R = 0` (R155). -/
def encrypt (c : Profile) (k : B16) (m : Bytes) : Nat → Option Bytes
  | 0 => none
  | n + 1 => some (encryptMore c n k m)

/-- `decrypt(k, c, R)` (R151), `k` being the round-`R` key (R149). Not defined for `R = 0` (R155). -/
def decrypt (c : Profile) (k : B16) (m : Bytes) : Nat → Option Bytes
  | 0 => none
  | n + 1 => some (decryptMore c n k m)

end Sys2Proof.Machine
end

