-- ==== Sys2Proof/Machine/Script.lean ====
section
/-! DEFINITION. The host-script lines of spec/30_encoding.md R91 and R92 as the sequences of host actions they stand for,
their runs, and the host procedure for a whole message (spec/44_engine.md R152). The textual layout of a line (spaces,
comments, numerals) is notation and is not modelled. -/

namespace Sys2Proof.Machine

/-- `wr <reg>, <word>` (R91). -/
def wr (r : RegName) (v : Word) : HostAction := .write (offsetOf r) 4 v

/-- `rd <reg>` (R91). -/
def rd (r : RegName) : HostAction := .read (offsetOf r) 4

/-- A command line (R91): the write of the command word to `CMD`. -/
def cmd (i : Instr) : HostAction := wr .cmd (encode i)

/-- The word numbers of a 16-byte register, in order. -/
def words4 : List (Fin 4) := [0, 1, 2, 3]

/-- Four writes of `word(s, 0)` to `word(s, 3)` (R92). -/
def loadWords (reg : Fin 4 → RegName) (x : B16) : List HostAction := words4.map fun w => wr (reg w) (wordOf x w)

/-- Four reads of a 16-byte register (R92). -/
def readWords (reg : Fin 4 → RegName) : List HostAction := words4.map fun w => rd (reg w)

/-- A mnemonic with its optional round count as a command word (R91); `none` where the line is not of the syntax. -/
def assemble (mnemonic : String) (n : Option Nat) : Option Word :=
  match n with
  | none =>
    if mnemonic = "NOP" then some (encode .nop)
    else if mnemonic = "DERIVE" then some (encode .derive)
    else if mnemonic = "PGEN" then some (encode .pgen)
    else if mnemonic = "RENC" then some (encode .renc)
    else if mnemonic = "RDEC" then some (encode .rdec)
    else if mnemonic = "KNEXT" then some (encode .knext)
    else if mnemonic = "KPREV" then some (encode .kprev)
    else none
  | some k =>
    if 65535 < k then none
    else if mnemonic = "ENC" then some (encode (.enc (BitVec.ofNat 16 k)))
    else if mnemonic = "DEC" then some (encode (.dec (BitVec.ofNat 16 k)))
    else none

/-- A script line (R91) or pseudo-line (R92). -/
inductive ScriptLine where
  | wr (r : RegName) (v : Word)
  | rd (r : RegName)
  | reset
  | command (i : Instr)
  | ldkey (x : B16)
  | ldblk (x : B16)
  | ldpass (text : List Char)
  | rdkey
  | rdsk
  | rdblk
  | clrfault
  | mvsk
  deriving DecidableEq, Repr

/-- The ASCII code of a character (R92, spec/93_implementation_defined.md G3); `none` where there is none. -/
def asciiByte (ch : Char) : Option Byte := if ch.toNat < 128 then some (BitVec.ofNat 8 ch.toNat) else none

/-- The ASCII bytes of a text. -/
def asciiBytes : List Char → Option Bytes
  | [] => some []
  | ch :: rest =>
    match asciiByte ch, asciiBytes rest with
    | some b, some bs => some (b :: bs)
    | _, _ => none

/-- `p ++ zeros(16 - n)` (R92). -/
def padPass (p : Bytes) : B16 := Vector.ofFn fun i => p.getD i.val 0#8

/-- `ldpass` (R92): four writes of the padded bytes to `PASS`, then the length to `PLEN`; at most 16 bytes. -/
def passActions (text : List Char) : Option (List HostAction) :=
  match asciiBytes text with
  | none => none
  | some p => if p.length ≤ 16 then some (loadWords .pass (padPass p) ++ [wr .plen (BitVec.ofNat 32 p.length)]) else none

/-- The host actions of a line, at the state it is run in: `mvsk` writes to `KEYw` the word it read from `SKw` (R92). -/
def lineActions (l : ScriptLine) (s : State) : Option (List HostAction) :=
  match l with
  | .wr r v => some [wr r v]
  | .rd r => some [rd r]
  | .reset => some [.reset]
  | .command i => some [cmd i]
  | .ldkey x => some (loadWords .key x)
  | .ldblk x => some (loadWords .blk x)
  | .ldpass text => passActions text
  | .rdkey => some (readWords .key)
  | .rdsk => some (readWords .sk)
  | .rdblk => some (readWords .blk)
  | .clrfault => some [wr .status 0x00000001]
  | .mvsk =>
    some (readWords .sk ++ words4.filterMap fun w => (regRead (.sk w) s).map fun v => wr (.key w) v)

/-- The state after a host action, `none` where the step stops. -/
def afterAction (a : HostAction) (s : State) : Option State :=
  match transact a s with
  | .next t => some t
  | .fault _ => none
  | .refused _ => none

/-- A sequence of host actions, with the port's answer to each (none to a reset). -/
def runActions : List HostAction → State → Option (State × List (Option Reply))
  | [], s => some (s, [])
  | a :: rest, s =>
    match afterAction a s with
    | none => none
    | some t =>
      match runActions rest t with
      | none => none
      | some (u, rs) => some (u, t.reply :: rs)

/-- The words read, in order: the script's result (R91). -/
def wordsRead : List (Option Reply) → List Word
  | [] => []
  | some (.data v) :: rest => v :: wordsRead rest
  | some .okay :: rest => wordsRead rest
  | some .err :: rest => wordsRead rest
  | none :: rest => wordsRead rest

/-- A script, from a state: the state it ends in and the words it read; `none` where a line is not of the syntax. -/
def runScript : List ScriptLine → State → Option (State × List Word)
  | [], s => some (s, [])
  | l :: rest, s =>
    match lineActions l s with
    | none => none
    | some as =>
      match runActions as s with
      | none => none
      | some (t, rs) =>
        match runScript rest t with
        | none => none
        | some (u, ws) => some (u, wordsRead rs ++ ws)

/-- The four bytes of a bus word, least significant first (spec/20_memory.md R56). -/
def bytesOfWord (v : Word) : Bytes := [v.extractLsb' 0 8, v.extractLsb' 8 8, v.extractLsb' 16 8, v.extractLsb' 24 8]

/-- The bytes the host gets from the words it read. -/
def bytesOfWords (ws : List Word) : Bytes := ws.flatMap bytesOfWord

/-- One block of the host procedure (R152): write it to `BLK`, issue the command, read `BLK`. -/
def blockActions (i : Instr) (b : B16) : List HostAction := loadWords .blk b ++ [cmd i] ++ readWords .blk

/-- The host procedure for a whole message (R152): the key once, then block by block. -/
def messageActions (i : Instr) (k : B16) (m : Bytes) : List HostAction :=
  loadWords .key k ++ (blocksOf m).flatMap (blockActions i)

/-- A command issued `n` times in a row, `none` where it stops. -/
def execTimes (i : Instr) : Nat → State → Option State
  | 0, s => some s
  | n + 1, s =>
    match exec i s with
    | .next t => execTimes i n t
    | .fault _ => none
    | .refused _ => none

end Sys2Proof.Machine
end

