-- ==== Sys2Proof/Safety.lean ====
section
/-! DEFINITION. What the claims are stated in: the invariants of the spec and which states can be reached. -/

namespace Sys2Proof.Machine

/-- The invariant of spec/10_state.md R28: `PERM` is a permutation of 0..7 and `IPERM[PERM[i]] = i`. -/
def PermsConsistent (s : State) : Prop := Perm.Valid s.perm ∧ Perm.Inverse s.perm s.iperm

/-- What `STATUS` and `FINFO` hold together (R30, R31, spec/60_exceptions.md R165): with nothing latched `CAUSE` and `FINFO`
are 0; with a fault latched `CAUSE` names it and `FINFO` holds the value the fault records. -/
def LatchConsistent (s : State) : Prop :=
  match s.status.cause with
  | none => s.status.fault = false ∧ s.finfo = 0
  | some .keylen => s.status.fault = true ∧ s.finfo.toNat > 16
  | some .illcmd => s.status.fault = true ∧ ∃ why, decode s.finfo = .illegal why
  | some .badrounds => s.status.fault = true ∧ (s.finfo = 0x00000007 ∨ s.finfo = 0x00000008)

/-- A state reached from reset, whatever the host does: any actions waiting at reset, then any number of steps, the host
free to add actions between them. -/
inductive Reachable : State → Prop where
  | reset : Reachable State.reset
  | hostAdds (s : State) (a : HostAction) : Reachable s → Reachable { s with pending := s.pending ++ [a] }
  | step (s t : State) : Reachable s → step s = .next t → Reachable t

/-- The ten registers of R20 hold the same values in both states; the host port's two fields may differ. -/
def SameRegisters (s t : State) : Prop :=
  s.pass = t.pass ∧ s.plen = t.plen ∧ s.key = t.key ∧ s.sk = t.sk ∧ s.blk = t.blk ∧ s.perm = t.perm ∧ s.iperm = t.iperm
    ∧ s.status = t.status ∧ s.ctrl = t.ctrl ∧ s.finfo = t.finfo

/-- How many bits of a byte are 1. -/
def onesIn (b : Byte) : Nat := ((List.range 8).filter fun i => b.getLsbD i).length

/-- The step goes on: it ends neither in a fault nor in a refusal. -/
def GoesOn (s : State) : Prop := ∃ t, step s = .next t

end Sys2Proof.Machine
end

