-- ==== Sys2Proof/Certificates/Slice0/Obligations.lean ====
section
/-! DEFINITION. The statements for the provers, each formalising numbered rules of spec/. A statement about a command says
what exec answers and, by an equation of states, that everything it does not name is unchanged. The values of the two OPEN
parameters are never used: a statement that mentions `Config.profile` holds whatever it is. -/

open Sys2Proof Sys2Proof.Machine

/-! ### Encoding -/

/-- spec/30_encoding.md R80, R81, R83, R91: a word decodes to a command exactly when it is that command's word, for every
command with every round count, and the round count stands in bits 23:8 above the opcode. -/
def Obligations.DecodeInvertsEncode : Prop :=
  (∀ (i : Instr) (w : Word), decode w = .command i ↔ w = encode i) ∧
  ∀ r : BitVec 16, (encode (.enc r)).toNat = 256 * r.toNat + 7 ∧ (encode (.dec r)).toNat = 256 * r.toNat + 8

/-- spec/30_encoding.md R83: a word selects a row's command exactly when `w & mask = match`. -/
def Obligations.DecodeFollowsOpcodeMap : Prop :=
  ∀ (w : Word), ∀ row ∈ opcodeRows,
    (w &&& row.mask = row.bits ↔ ∃ i, decode w = .command i ∧ i.mnemonic = row.mnemonic)

/-- spec/95_test_vectors.md, the D-vectors: words written out from the encoding decode as listed there. -/
def Obligations.CommandWordSamples : Prop :=
  decode 0x00000000 = .command .nop ∧ decode 0x00000001 = .command .derive ∧ decode 0x00000002 = .command .pgen ∧
  decode 0x00000003 = .command .renc ∧ decode 0x00000004 = .command .rdec ∧ decode 0x00000005 = .command .knext ∧
  decode 0x00000006 = .command .kprev ∧ decode 0x00FFFF07 = .command (.enc 65535) ∧
  decode 0x00000308 = .command (.dec 3) ∧ decode 0x00000007 = .command (.enc 0) ∧
  decode 0x00000009 = .illegal .opcodeUnassigned ∧ decode 0x00000101 = .illegal .operandNotAllowed ∧
  decode 0x01000007 = .illegal .reservedBitsSet

/-- spec/60_exceptions.md R171 (with R167, R168): the order of checks of a write to `CMD`, each with its whole effect: refused
while a fault is latched; `ILLCMD`; `BADROUNDS`; `KEYLEN`; and in every other case the word's command runs, with no fault. -/
def Obligations.CommandCheckOrder : Prop :=
  ∀ (s : State) (w : Word) (rest : List HostAction), s.pending = .write 0x00 4 w :: rest →
    let illegal := w.toNat / 2 ^ 24 ≠ 0 ∨ w.toNat % 256 > 8 ∨ (w.toNat % 256 ≤ 6 ∧ w.toNat / 256 % 65536 ≠ 0)
    (s.status.fault = true → step s = .next { s with pending := rest, reply := some .err }) ∧
    (s.status.fault = false → illegal →
      step s = .next { s with pending := rest, reply := some .okay, finfo := w,
                              status := { fault := true, cause := some .illcmd } }) ∧
    (s.status.fault = false → w = 0x00000007 ∨ w = 0x00000008 →
      step s = .next { s with pending := rest, reply := some .okay, finfo := w,
                              status := { fault := true, cause := some .badrounds } }) ∧
    (s.status.fault = false → w = 0x00000001 → s.plen.toNat > 16 →
      step s = .next { s with pending := rest, reply := some .okay, finfo := s.plen,
                              status := { fault := true, cause := some .keylen } }) ∧
    (s.status.fault = false → ¬ illegal → w ≠ 0x00000007 → w ≠ 0x00000008 → (w = 0x00000001 → s.plen.toNat ≤ 16) →
      ∃ i t, decode w = .command i ∧ step s = exec i { s with pending := rest, reply := some .okay } ∧ step s = .next t ∧
        t.status = s.status ∧ t.finfo = s.finfo ∧ t.reply = some .okay)

/-! ### The step -/

/-- spec/30_encoding.md R90, spec/20_memory.md R55: with no fault latched, the step of a write to `CMD` of a word that decodes to
a command is `exec` of that command, the answer `OKAY` on the port and the action taken off the host's list. -/
def Obligations.StepRunsDecodedCommand : Prop :=
  ∀ (s : State) (w : Word) (i : Instr) (rest : List HostAction), s.pending = .write 0x00 4 w :: rest →
    s.status.fault = false → decode w = .command i →
    step s = exec i { s with pending := rest, reply := some .okay }

/-- The model's own convention (log entry 4): a row's word placed by `withFetchWord` is the very next command run, from a state
that differs from `s` at most in a fault latch that was cleared. -/
def Obligations.PlacedWordRunsNext : Prop :=
  ∀ (s : State) (w : Word) (i : Instr), decode w = .command i →
    decodeTableWord 32 w.toNat = some i ∧
    ∃ s0 : State, step (s.withFetchWord 32 w.toNat) = exec i s0 ∧ s0.status.fault = false ∧ s0.pending = s.pending ∧
      s0 = { s with status := s0.status, finfo := s0.finfo, reply := some .okay } ∧
      (s.status.fault = false → s0.status = s.status ∧ s0.finfo = s.finfo)

/-- The model's own convention (log entry 2), after spec/10_state.md R36 and spec/20_memory.md R60: with no action of the host to
perform, nothing changes. -/
def Obligations.IdleMachineWaits : Prop := ∀ s : State, s.pending = [] → step s = .next s

/-- spec/10_state.md R36: every register's value after reset, for the state after reset and for a reset taken in any state. -/
def Obligations.ResetGivesEveryRegisterItsValue : Prop :=
  let atReset := fun t : State =>
    (∀ i : Fin 16, t.pass[i] = 0 ∧ t.key[i] = 0 ∧ t.sk[i] = 0 ∧ t.blk[i] = 0) ∧ t.plen = 0 ∧ statusWord t.status = 0 ∧
    ctrlWord t.ctrl = 0 ∧ t.finfo = 0 ∧ (∀ i : Fin 8, t.perm[i] = i ∧ t.iperm[i] = i) ∧ t.status.fault = false ∧
    t.ctrl.ie = false
  atReset State.reset ∧
  ∀ (s : State) (rest : List HostAction), s.pending = .reset :: rest → ∃ t, step s = .next t ∧ atReset t

/-- spec/70_reset_and_hazards.md R191: what each readable offset reads as right after a reset, taken in any state. -/
def Obligations.ReadsAfterReset : Prop :=
  ∀ (s : State) (rest : List HostAction) (off : BitVec 8),
    off.toNat % 4 = 0 → off.toNat < 0x60 → off ≠ 0x00 → off ≠ 0x14 → s.pending = .reset :: .read off 4 :: rest →
    ∃ t, Sys2Proof.core.run 2 s = .next t ∧
      t.reply = some (.data (if off = 0x18 ∨ off = 0x1C then 0x76543210 else 0))

/-- spec/93_implementation_defined.md part 1, spec/70_reset_and_hazards.md R200: no command and no host action ever stops the
machine. -/
def Obligations.NothingStopsTheMachine : Prop :=
  (∀ (i : Instr) (s : State), ∃ t, exec i s = .next t) ∧ ∀ s : State, GoesOn s

/-! ### The commands -/

/-- spec/44_engine.md R145: `NOP` changes no register; issued while a fault is latched it is refused like any command. -/
def Obligations.NopChangesNothing : Prop :=
  decode 0x00000000 = .command .nop ∧ (∀ s : State, exec .nop s = .next s) ∧
  ∀ (s : State) (rest : List HostAction), s.pending = .write 0x00 4 0x00000000 :: rest →
    step s = .next { s with pending := rest, reply := some (if s.status.fault then .err else .okay) }

/-- spec/40_key_deriver.md R101, R102: `derive` and `DERIVE` cut the key from the two drawn words, least significant byte first,
and xor the passphrase in; above 16 bytes `derive` is not defined and `DERIVE` raises `KEYLEN`. -/
def Obligations.DeriveCutsKeyAndXorsPassphrase : Prop :=
  (∀ (c : Profile) (p : Bytes),
    (p.length > 16 → derive c p = none) ∧
    (p.length ≤ 16 →
      ∃ k, derive c p = some k ∧
        ∀ i : Fin 16, k[i] =
          BitVec.ofNat 8 ((if i.val < 8 then (c.kdfWords p).1 else (c.kdfWords p).2).toNat / 256 ^ (i.val % 8)) ^^^
            p.getD i.val 0)) ∧
  decode 0x00000001 = .command .derive ∧
  ∀ s : State,
    (s.plen.toNat ≤ 16 →
      ∃ t, exec .derive s = .next t ∧ t = { s with key := t.key } ∧
        derive Config.profile (s.pass.toList.take s.plen.toNat) = some t.key ∧
        let ws := Config.kdfWords (s.pass.toList.take s.plen.toNat)
        ∀ i : Fin 16, t.key[i] =
          BitVec.ofNat 8 ((if i.val < 8 then ws.1 else ws.2).toNat / 256 ^ (i.val % 8)) ^^^
            (if i.val < s.plen.toNat then s.pass[i] else 0)) ∧
    (s.plen.toNat > 16 →
      exec .derive s = .next { s with status := { fault := true, cause := some .keylen }, finfo := s.plen })

/-- spec/40_key_deriver.md R103: equal lengths and equal passphrase bytes give equal keys, whatever the rest of `PASS` and the
other registers hold, and `DERIVE` changes `KEY` and nothing else. -/
def Obligations.DeriveSeesOnlyThePassphrase : Prop :=
  ∀ s s' : State, s.plen = s'.plen → s.plen.toNat ≤ 16 →
    (∀ i : Fin 16, i.val < s.plen.toNat → s.pass[i] = s'.pass[i]) →
    ∃ t t', exec .derive s = .next t ∧ exec .derive s' = .next t' ∧ t.key = t'.key ∧
      t = { s with key := t.key } ∧ t' = { s' with key := t'.key }

/-- spec/40_key_deriver.md R105, for every instance of the parameter: with the same drawn words, two passphrases that differ at
one index give keys that differ at that index and nowhere else; and beyond the passphrase the key is as drawn. -/
def Obligations.KeyByteFollowsPassphraseByte : Prop :=
  ∀ (c : Profile) (p q : Bytes) (j : Fin 16), p.length ≤ 16 → p.length = q.length → c.kdfWords p = c.kdfWords q →
    (∀ i, i ≠ j.val → p[i]? = q[i]?) → p[j.val]? ≠ q[j.val]? →
    ∃ k l, derive c p = some k ∧ derive c q = some l ∧ (∀ i : Fin 16, k[i] ≠ l[i] ↔ i = j) ∧
      ∀ i : Fin 16, p.length ≤ i.val →
        k[i] = BitVec.ofNat 8 ((if i.val < 8 then (c.kdfWords p).1 else (c.kdfWords p).2).toNat / 256 ^ (i.val % 8))

/-- spec/41_permutation.md R114: `PGEN` writes `generate(KEY)` to `PERM` and its inverse to `IPERM` and nothing else. -/
def Obligations.PgenWritesVectorAndInverse : Prop :=
  decode 0x00000002 = .command .pgen ∧
  ∀ s : State, ∃ t, exec .pgen s = .next t ∧ t = { s with perm := t.perm, iperm := t.iperm } ∧
    t.perm = shuffle (Config.permDraws s.key) ∧ ∀ i j : Fin 8, t.iperm[j] = i ↔ t.perm[i] = j

/-- spec/42_round.md R126: `RENC`, lane by lane, with its corner cases and its agreement with `ENC 1`. -/
def Obligations.RencRoundsTheBlock : Prop :=
  decode 0x00000003 = .command .renc ∧
  ∀ s : State, exec (.enc 1) s = exec .renc s ∧
    ∃ t, exec .renc s = .next t ∧ t = { s with blk := t.blk, sk := t.sk, perm := t.perm, iperm := t.iperm } ∧
      t.sk = s.key ∧ t.perm = generate Config.profile s.key ∧ t.iperm = invert t.perm ∧
      ∀ i : Fin 16,
        (let a := s.blk[i] ^^^ s.key[i]
         t.blk[i] = bitperm t.perm ((a <<< 3) ||| (a >>> 5)) ^^^ s.key[i]) ∧
        (s.blk[i] = s.key[i] → t.blk[i] = s.key[i]) ∧ (s.blk[i] = s.key[i] ^^^ 0xFF → t.blk[i] = s.key[i] ^^^ 0xFF)

/-- spec/42_round.md R127: `RDEC`, lane by lane, with its corner cases and its agreement with `DEC 1`; `PERM` holds the forward
vector; it undoes `RENC` and `RENC` undoes it. -/
def Obligations.RdecUnroundsTheBlock : Prop :=
  decode 0x00000004 = .command .rdec ∧
  ∀ s : State, exec (.dec 1) s = exec .rdec s ∧
    ∃ t, exec .rdec s = .next t ∧ t = { s with blk := t.blk, sk := t.sk, perm := t.perm, iperm := t.iperm } ∧
      t.sk = s.key ∧ t.perm = generate Config.profile s.key ∧ t.iperm = invert t.perm ∧
      (∃ u v, exec .renc s = .next u ∧ exec .rdec u = .next v ∧ v.blk = s.blk) ∧
      (∃ v, exec .renc t = .next v ∧ v.blk = s.blk) ∧
      ∀ i : Fin 16,
        (let u := bitunperm t.perm (s.blk[i] ^^^ s.key[i])
         t.blk[i] = ((u >>> 3) ||| (u <<< 5)) ^^^ s.key[i]) ∧
        (s.blk[i] = s.key[i] → t.blk[i] = s.key[i]) ∧ (s.blk[i] = s.key[i] ^^^ 0xFF → t.blk[i] = s.key[i] ^^^ 0xFF)

/-- spec/43_key_schedule.md R135, R139: `KNEXT` moves bit `j` of every key byte to bit `(j + 3) mod 8` and changes nothing but
`KEY`; eight of them restore `KEY`, and a key of bytes 0x00 and 0xFF stays as it is. -/
def Obligations.KnextRotatesKeyBytesLeft : Prop :=
  decode 0x00000005 = .command .knext ∧
  ∀ s : State, ∃ t, exec .knext s = .next t ∧ t = { s with key := t.key } ∧ t.key = nextRoundKey s.key ∧
    (∀ (i : Fin 16) (j : Fin 8), t.key[i].getLsbD ((j.val + 3) % 8) = s.key[i].getLsbD j.val) ∧
    execTimes .knext 8 s = some s ∧ ((∀ i : Fin 16, s.key[i] = 0x00 ∨ s.key[i] = 0xFF) → t = s)

/-- spec/43_key_schedule.md R140 (with the rotation of R136): `KPREV` moves bit `j` of every key byte to bit `(j - 3) mod 8` and
changes nothing but `KEY`; it is the same as seven `KNEXT`, and undoes one. -/
def Obligations.KprevRotatesKeyBytesRight : Prop :=
  decode 0x00000006 = .command .kprev ∧
  ∀ s : State, ∃ t, exec .kprev s = .next t ∧ t = { s with key := t.key } ∧ t.key = previousRoundKey s.key ∧
    (∀ (i : Fin 16) (j : Fin 8), t.key[i].getLsbD j.val = s.key[i].getLsbD ((j.val + 3) % 8)) ∧
    execTimes .knext 7 s = some t ∧ exec .knext t = .next s ∧ (∃ u, exec .knext s = .next u ∧ exec .kprev u = .next s) ∧
    ((∀ i : Fin 16, s.key[i] = 0x00 ∨ s.key[i] = 0xFF) → t = s)

/-- spec/44_engine.md R146: `ENC R` runs `R` rounds, computes `encrypt` of a message of one block, leaves the last subkey in `SK` and its vector in `PERM`, and changes neither
`KEY` nor anything else; with `R = 0` it raises `BADROUNDS` and writes nothing but the fault. -/
def Obligations.EncRunsItsRounds : Prop :=
  ∀ (s : State) (r : BitVec 16),
    decode (0#8 ++ r ++ 0x07#8) = .command (.enc r) ∧
    (r ≠ 0 →
      ∃ t, exec (.enc r) s = .next t ∧ t = { s with blk := t.blk, sk := t.sk, perm := t.perm, iperm := t.iperm } ∧
        encBlock Config.profile s.key s.blk r.toNat = some (t.blk, t.sk) ∧ roundKeyFor s.key r.toNat = some t.sk ∧
        encrypt Config.profile s.key s.blk.toList r.toNat = some t.blk.toList ∧ (r = 1 → exec .renc s = .next t) ∧
        t.perm = generate Config.profile t.sk ∧ t.iperm = invert t.perm) ∧
    (r = 0 →
      exec (.enc r) s = .next { s with status := { fault := true, cause := some .badrounds }, finfo := 0x00000007 })

/-- spec/44_engine.md R147: `DEC R`, the same with the schedule walked backward; `SK` is `KEY` stepped back `R - 1` times. -/
def Obligations.DecRunsItsRounds : Prop :=
  ∀ (s : State) (r : BitVec 16),
    decode (0#8 ++ r ++ 0x08#8) = .command (.dec r) ∧
    (r ≠ 0 →
      ∃ t, exec (.dec r) s = .next t ∧ t = { s with blk := t.blk, sk := t.sk, perm := t.perm, iperm := t.iperm } ∧
        decBlock Config.profile s.key s.blk r.toNat = some (t.blk, t.sk) ∧ t.sk = keyBackward s.key (r.toNat - 1) ∧
        decrypt Config.profile s.key s.blk.toList r.toNat = some t.blk.toList ∧ (r = 1 → exec .rdec s = .next t) ∧
        (∀ k, roundKeyFor k r.toNat = some s.key → t.sk = k) ∧
        t.perm = generate Config.profile t.sk ∧ t.iperm = invert t.perm) ∧
    (r = 0 →
      exec (.dec r) s = .next { s with status := { fault := true, cause := some .badrounds }, finfo := 0x00000008 })

/-- spec/10_state.md R20, the column "written by": which registers a command may change, and that a command that faults changes
only the latch. -/
def Obligations.CommandsWriteOnlyTheirRegisters : Prop :=
  ∀ (i : Instr) (s t : State), exec i s = .next t →
    t.pass = s.pass ∧ t.plen = s.plen ∧ t.ctrl = s.ctrl ∧ t.pending = s.pending ∧ t.reply = s.reply ∧
    (t.key ≠ s.key → i = .derive ∨ i = .knext ∨ i = .kprev) ∧
    (t.sk ≠ s.sk ∨ t.blk ≠ s.blk → i = .renc ∨ i = .rdec ∨ (∃ r, i = .enc r) ∨ ∃ r, i = .dec r) ∧
    (t.perm ≠ s.perm ∨ t.iperm ≠ s.iperm → i = .pgen ∨ i = .renc ∨ i = .rdec ∨ (∃ r, i = .enc r) ∨ ∃ r, i = .dec r) ∧
    (t.status ≠ s.status ∨ t.finfo ≠ s.finfo →
      (i = .derive ∨ i = .enc 0 ∨ i = .dec 0) ∧ t = { s with status := t.status, finfo := t.finfo })

/-- spec/10_state.md R23: `SK` is never an input of any command: two states that differ in `SK` alone are led to states that
differ in `SK` at most. -/
def Obligations.SkIsNeverAnInput : Prop :=
  ∀ (i : Instr) (s : State) (x : B16),
    ∃ t u, exec i s = .next t ∧ exec i { s with sk := x } = .next u ∧ u = { t with sk := u.sk } ∧
      (u.sk = t.sk ∨ (t.sk = s.sk ∧ u.sk = x))

/-- spec/10_state.md R35, spec/41_permutation.md R115, R118, spec/44_engine.md R157: the vector is a function of the key bytes and a
round's results are a function of the key and the block, whatever else the two states hold. -/
def Obligations.ResultsDependOnKeyAndBlockOnly : Prop :=
  ∀ s s' : State, s.key = s'.key →
    (∃ t t', exec .pgen s = .next t ∧ exec .pgen s' = .next t' ∧ t.perm = t'.perm ∧ t.iperm = t'.iperm) ∧
    ∀ i : Instr, (i = .renc ∨ i = .rdec ∨ ∃ r, r ≠ 0 ∧ (i = .enc r ∨ i = .dec r)) → s.blk = s'.blk →
      ∃ t t', exec i s = .next t ∧ exec i s' = .next t' ∧ t.blk = t'.blk ∧ t.sk = t'.sk ∧ t.perm = t'.perm ∧
        t.iperm = t'.iperm

/-! ### The functions the commands compute -/

/-- spec/41_permutation.md R117: every shuffle is a permutation, the map from draws to permutations is a bijection, the identity
comes exactly from `d_i = i`, and every permutation is `generate(k)` for a suitable instance of the parameter. -/
def Obligations.ShuffleGivesEveryPermutationOnce : Prop :=
  (∀ d : Draws, Perm.Valid (shuffle d)) ∧ (∀ d e : Draws, shuffle d = shuffle e → d = e) ∧
  (∀ p : Perm, Perm.Valid p → ∃ d, shuffle d = p) ∧
  (∀ d : Draws, shuffle d = Perm.identity ↔ d = { d7 := 7, d6 := 6, d5 := 5, d4 := 4, d3 := 3, d2 := 2, d1 := 1 }) ∧
  ∀ (p : Perm) (k : B16), Perm.Valid p → ∃ c : Profile, generate c k = p

/-- spec/41_permutation.md R113: `invert` gives the inverse of a permutation, and is its own inverse. -/
def Obligations.InvertGivesTheInverse : Prop :=
  invert Perm.identity = Perm.identity ∧
  ∀ p : Perm, Perm.Valid p →
    Perm.Inverse p (invert p) ∧ Perm.Inverse (invert p) p ∧ Perm.Valid (invert p) ∧ invert (invert p) = p

/-- spec/42_round.md R120: output bit `i` is input bit `P[i]`; a permutation keeps the number of one bits and the bytes 0x00 and
0xFF; the identity keeps every byte. -/
def Obligations.BitpermSelectsBits : Prop :=
  (∀ (p : Perm) (b : Byte) (i : Fin 8), (bitperm p b).getLsbD i.val = b.getLsbD p[i].val) ∧
  (∀ (p : Perm) (b : Byte), Perm.Valid p → onesIn (bitperm p b) = onesIn b) ∧
  (∀ p : Perm, Perm.Valid p → bitperm p 0x00 = 0x00 ∧ bitperm p 0xFF = 0xFF) ∧
  ∀ b : Byte, bitperm Perm.identity b = b

/-- spec/42_round.md R121: for a permutation, output bit `P[i]` is input bit `i`, the two reorderings undo each other, and
`bitunperm` is `bitperm` of the inverse vector. -/
def Obligations.BitunpermUndoesBitperm : Prop :=
  ∀ (p : Perm) (b : Byte), Perm.Valid p →
    (∀ i : Fin 8, (bitunperm p b).getLsbD p[i].val = b.getLsbD i.val) ∧
    bitunperm p b = bitperm (invert p) b ∧ bitunperm p (bitperm p b) = b ∧ bitperm p (bitunperm p b) = b

/-- spec/42_round.md R128: the round and its inverse undo each other, for every permutation, key and block, and so do `RENC` and
`RDEC` issued one after the other. -/
def Obligations.RoundAndInverseCancel : Prop :=
  (∀ (p : Perm) (k b : B16), Perm.Valid p → roundD p k (roundE p k b) = b ∧ roundE p k (roundD p k b) = b) ∧
  (∀ (c : Profile) (k b : B16), roundDecrypt c k (roundEncrypt c k b) = b) ∧
  ∀ s : State,
    (∃ t u, exec .renc s = .next t ∧ exec .rdec t = .next u ∧ u.blk = s.blk) ∧
    ∃ t u, exec .rdec s = .next t ∧ exec .renc t = .next u ∧ u.blk = s.blk

/-- spec/42_round.md R129: a lane depends on its block byte, its key byte and the vector alone, as its formula says; a change of
one block bit changes exactly one bit of the output, in the same lane; and a change of one key bit can change every lane. -/
def Obligations.LanesDoNotMix : Prop :=
  (∀ (p : Perm) (k b : B16) (i : Fin 16), (roundE p k b)[i] = bitperm p (rotl3 (b[i] ^^^ k[i])) ^^^ k[i]) ∧
  (∀ (p : Perm) (k k' b b' : B16) (i : Fin 16), k[i] = k'[i] → b[i] = b'[i] → (roundE p k b)[i] = (roundE p k' b')[i]) ∧
  (∀ (p : Perm) (k b : B16) (i : Fin 16) (j : Fin 8), Perm.Valid p →
    ∃ m : Fin 8, roundE p k (b.set i.val (b[i] ^^^ (1#8 <<< j.val)))
      = (roundE p k b).set i.val ((roundE p k b)[i] ^^^ (1#8 <<< m.val))) ∧
  ∃ (c : Profile) (k b : B16) (i : Fin 16) (j : Fin 8), ∀ l : Fin 16,
    (roundEncrypt c (k.set i.val (k[i] ^^^ (1#8 <<< j.val))) b)[l] ≠ (roundEncrypt c k b)[l]

/-- spec/43_key_schedule.md R136: the step backward rotates every byte right by 3, and the two steps of the schedule undo each
other, as functions and as commands. -/
def Obligations.ScheduleStepsCancel : Prop :=
  (∀ (k : B16) (i : Fin 16), (previousRoundKey k)[i] = k[i].rotateRight 3 ∧ (nextRoundKey k)[i] = k[i].rotateLeft 3) ∧
  (∀ k : B16, previousRoundKey (nextRoundKey k) = k ∧ nextRoundKey (previousRoundKey k) = k) ∧
  ∀ s : State,
    (∃ t, exec .knext s = .next t ∧ exec .kprev t = .next s) ∧ ∃ t, exec .kprev s = .next t ∧ exec .knext t = .next s

/-- spec/43_key_schedule.md R138: the closed form of the key of round `r`, the period 8, and the keys with a shorter one. -/
def Obligations.SchedulePeriodIsEight : Prop :=
  (∀ (k : B16) (n : Nat),
    roundKeyFor k (n + 1) = some (Vector.ofFn fun i : Fin 16 => k[i].rotateLeft (3 * n % 8))) ∧
  (∀ (k : B16) (r : Nat), 1 ≤ r → roundKeyFor k (r + 8) = roundKeyFor k r) ∧
  (∀ k : B16, keyForward k 8 = k ∧ keyBackward k 8 = k ∧ keyForward k 7 = previousRoundKey k) ∧
  (∀ k : B16, (∀ i : Fin 16, k[i] = 0x00 ∨ k[i] = 0xFF) → nextRoundKey k = k) ∧
  ∀ (k : B16) (i : Fin 16), (k[i] = 0x55 → (nextRoundKey k)[i] = 0xAA) ∧ (k[i] = 0xAA → (nextRoundKey k)[i] = 0x55)

/-- spec/44_engine.md R149 (a), spec/43_key_schedule.md R137, R139: `KNEXT` issued `R - 1` times leaves the round-`R` key in `KEY`
and changes nothing else. -/
def Obligations.KnextReachesTheRoundKey : Prop :=
  ∀ (s : State) (r : Nat), 1 ≤ r →
    ∃ t, execTimes .knext (r - 1) s = some t ∧ roundKeyFor s.key r = some t.key ∧ t = { s with key := t.key }

/-- spec/44_engine.md R148: `encBlock` applies the rounds with the keys of rounds 1 to `R` in that order, `decBlock` the inverse
rounds with the key stepped back 0 to `R - 1` times; neither is defined for `R = 0`. -/
def Obligations.BlockRoundsFollowTheSchedule : Prop :=
  ∀ (c : Profile) (k b : B16),
    encBlock c k b 0 = none ∧ decBlock c k b 0 = none ∧
    encBlock c k b 1 = some (roundEncrypt c k b, k) ∧ decBlock c k b 1 = some (roundDecrypt c k b, k) ∧
    ∀ r : Nat, 1 ≤ r →
      (∃ x sk, encBlock c k b r = some (x, sk) ∧ roundKeyFor k r = some sk ∧
        encBlock c k b (r + 1) = some (roundEncrypt c (nextRoundKey sk) x, nextRoundKey sk)) ∧
      ∃ x sk, decBlock c k b r = some (x, sk) ∧ sk = keyBackward k (r - 1) ∧
        decBlock c k b (r + 1) = some (roundDecrypt c (previousRoundKey sk) x, previousRoundKey sk)

/-- spec/44_engine.md R149 (b), spec/95_test_vectors.md M8: `ENC R`, the copy of `SK` to `KEY`, and `DEC R` give the block back, and
leave the first key in `SK`. -/
def Obligations.DecAfterEncRestoresTheBlock : Prop :=
  ∀ (s : State) (r : BitVec 16), r ≠ 0 →
    ∃ t u, exec (.enc r) s = .next t ∧ exec (.dec r) { t with key := t.sk } = .next u ∧
      u.blk = s.blk ∧ u.sk = s.key ∧ u.perm = generate Config.profile s.key

/-- spec/44_engine.md R153: the round trip, for one block and for a message, for every instance of the parameters. -/
def Obligations.MessageRoundTrip : Prop :=
  (∀ (c : Profile) (k b : B16) (r : Nat), 1 ≤ r →
    ∃ x l, roundKeyFor k r = some l ∧ encBlock c k b r = some (x, l) ∧ decBlock c l x r = some (b, k)) ∧
  ∀ (c : Profile) (p m : Bytes) (r : Nat), p.length ≤ 16 → 1 ≤ r →
    ∃ k l e, derive c p = some k ∧ roundKeyFor k r = some l ∧ encrypt c k m r = some e ∧ decrypt c l e r = some (pad16 m)

/-- spec/44_engine.md R151, R152: block `n` of a message's encryption is the encryption of block `n`, and the same for decryption:
with the lengths of R154, the block-by-block procedure and the round-by-round functions give the same bytes. -/
def Obligations.MessageIsBlockwise : Prop :=
  ∀ (c : Profile) (k : B16) (m : Bytes) (r : Nat), 1 ≤ r →
    (∃ e, encrypt c k m r = some e ∧ nblocks e = nblocks m ∧
      ∀ n, n < nblocks m → ∃ sk, encBlock c k (blockAt m n) r = some (blockAt e n, sk)) ∧
    ∃ e, decrypt c k m r = some e ∧ nblocks e = nblocks m ∧
      ∀ n, n < nblocks m → ∃ sk, decBlock c k (blockAt m n) r = some (blockAt e n, sk)

/-- spec/44_engine.md R154: the lengths of `encrypt` and `decrypt`. -/
def Obligations.OutputLengthIsRoundedUp : Prop :=
  ∀ (c : Profile) (k : B16) (m : Bytes) (r : Nat), 1 ≤ r →
    ∃ e d, encrypt c k m r = some e ∧ decrypt c k m r = some d ∧ e.length = d.length ∧ e.length % 16 = 0 ∧
      m.length ≤ e.length ∧ e.length < m.length + 16 ∧ (e.length = m.length ↔ m.length % 16 = 0)

/-- spec/44_engine.md R150: padding with zero bytes to a multiple of 16, none where the length is one, and the partition. -/
def Obligations.PaddingAndPartition : Prop :=
  ∀ m : Bytes,
    (pad16 m).length = 16 * nblocks m ∧ m.length ≤ 16 * nblocks m ∧ 16 * nblocks m < m.length + 16 ∧
    (pad16 m).take m.length = m ∧ (∀ b ∈ (pad16 m).drop m.length, b = 0) ∧ (m.length % 16 = 0 → pad16 m = m) ∧
    (∀ n, n < nblocks m → (blockAt m n).toList = ((pad16 m).drop (16 * n)).take 16) ∧
    bytesOfBlocks (blocksOf m) = pad16 m

/-! ### The host port -/

/-- spec/20_memory.md R53, R54, R55: exactly which transactions get `ERR`, and that none of them changes a register. -/
def Obligations.BusErrorsExactly : Prop :=
  let badPlace := fun (off : BitVec 8) (n : Nat) => n ≠ 4 ∨ off.toNat % 4 ≠ 0 ∨ off.toNat ≥ 0x60 ∨ off = 0x14
  (∀ (s : State) (off : BitVec 8) (n : Nat) (rest : List HostAction), s.pending = .read off n :: rest →
    ∃ t, step s = .next t ∧ SameRegisters s t ∧ (t.reply = some .err ↔ badPlace off n ∨ off = 0x00) ∧
      (t.reply ≠ some .err → ∃ v, t.reply = some (.data v))) ∧
  ∀ (s : State) (off : BitVec 8) (n : Nat) (v : Word) (rest : List HostAction), s.pending = .write off n v :: rest →
    ∃ t, step s = .next t ∧ (t.reply = some .err → SameRegisters s t) ∧ (t.reply = some .err ∨ t.reply = some .okay) ∧
      (t.reply = some .err ↔
        badPlace off n ∨ off = 0x0C ∨ off = 0x18 ∨ off = 0x1C ∨ off = 0x40 ∨ off = 0x44 ∨ off = 0x48 ∨ off = 0x4C ∨
          (off = 0x00 ∧ s.status.fault = true))

/-- spec/20_memory.md R56: word `Xw` holds bytes `4w` to `4w+3`, the lowest index in the least significant bits; a write of one
word changes those four bytes only. -/
def Obligations.WordPackingIsLittleEndian : Prop :=
  (∀ (s : State) (w : Fin 4) (rest : List HostAction),
    ∀ x ∈ [(0x20, s.pass), (0x30, s.key), (0x40, s.sk), (0x50, s.blk)],
      s.pending = .read (BitVec.ofNat 8 (x.1 + 4 * w.val)) 4 :: rest →
      ∃ v, step s = .next { s with pending := rest, reply := some (.data v) } ∧
        ∀ i : Fin 16, i.val / 4 = w.val → v.extractLsb' (8 * (i.val % 4)) 8 = x.2[i]) ∧
  ∀ (s : State) (w : Fin 4) (v : Word) (rest : List HostAction) (base : Nat),
    base = 0x20 ∨ base = 0x30 ∨ base = 0x50 → s.pending = .write (BitVec.ofNat 8 (base + 4 * w.val)) 4 v :: rest →
    let stored := fun x : B16 =>
      (Vector.ofFn fun i : Fin 16 => if i.val / 4 = w.val then v.extractLsb' (8 * (i.val % 4)) 8 else x[i] : B16)
    step s = .next { s with
      pending := rest, reply := some .okay,
      pass := if base = 0x20 then stored s.pass else s.pass,
      key := if base = 0x30 then stored s.key else s.key,
      blk := if base = 0x50 then stored s.blk else s.blk }

/-- spec/10_state.md R26, R27: `PERM` and `IPERM` read as one word with entry `i` in bits `4i+2 : 4i` and bit `4i+3` zero. -/
def Obligations.PermWordHoldsEntryPerNibble : Prop :=
  ∀ (s : State) (rest : List HostAction) (x : BitVec 8 × Perm), x = (0x18, s.perm) ∨ x = (0x1C, s.iperm) →
    s.pending = .read x.1 4 :: rest →
    ∃ v, step s = .next { s with pending := rest, reply := some (.data v) } ∧
      ∀ i : Fin 8, (v.extractLsb' (4 * i.val) 4).toNat = x.2[i].val

/-- spec/10_state.md R30, spec/60_exceptions.md R165: `STATUS` reads with `FAULT` in bit 0, the cause code in bits 7:4 and every
other bit 0. -/
def Obligations.StatusWordLayout : Prop :=
  ∀ (s : State) (rest : List HostAction), s.pending = .read 0x04 4 :: rest →
    ∃ v, step s = .next { s with pending := rest, reply := some (.data v) } ∧
      v.getLsbD 0 = s.status.fault ∧ v.extractLsb' 1 3 = 0 ∧ v.extractLsb' 8 24 = 0 ∧
      (v.extractLsb' 4 4).toNat =
        (match s.status.cause with
         | none => 0
         | some .keylen => 1
         | some .illcmd => 2
         | some .badrounds => 3)

/-- spec/10_state.md R29, R31, spec/20_memory.md R60: a write to `PLEN` stores all 32 bits and raises nothing, a write to `CTRL`
stores bit 0, and both read back, with the reserved bits of `CTRL` 0; `FINFO` reads as it stands. -/
def Obligations.PlenAndCtrlStoreAndReadBack : Prop :=
  ∀ (s : State) (v : Word) (rest : List HostAction),
    (s.pending = .write 0x10 4 v :: rest → step s = .next { s with pending := rest, reply := some .okay, plen := v }) ∧
    (s.pending = .write 0x08 4 v :: rest →
      step s = .next { s with pending := rest, reply := some .okay, ctrl := { ie := v.getLsbD 0 } }) ∧
    (s.pending = .read 0x10 4 :: rest → step s = .next { s with pending := rest, reply := some (.data s.plen) }) ∧
    (s.pending = .read 0x08 4 :: rest →
      step s = .next { s with pending := rest, reply := some (.data (if s.ctrl.ie then 1 else 0)) }) ∧
    (s.pending = .read 0x0C 4 :: rest → step s = .next { s with pending := rest, reply := some (.data s.finfo) })

/-- spec/70_reset_and_hazards.md R189, R190, with the model's reading of the ports (log entries 5, 9 and 10): a low `rst_n`
is a reset whatever the others ask; of the sizes only the value 2 is legal: with any other the transaction answers `resp` = 1 and
changes no register, and with 2 it is the 4-byte read or write of `addr`, its answer on `ready`, `resp` and `rdata`. -/
def Obligations.PortSizeOtherThanTwoIsRefused : Prop :=
  ∀ (p : PortIn) (s : State), s.pending = [] →
    (p.rstN = false → step (offerPort p s) = .next State.reset) ∧
    (p.rstN = true → p.sel = true → p.size ≠ 2 →
      ∃ t, step (offerPort p s) = .next t ∧ (portOut t).resp = some true ∧ SameRegisters s t) ∧
    (p.rstN = true → p.sel = true → p.size = 2 →
      ∃ t, step (offerPort p s) = .next t ∧
        step { s with pending := [if p.write then .write p.addr 4 p.wdata else .read p.addr 4] } = .next t ∧
        (portOut t).ready = true ∧ (portOut t).irq = irq t ∧
        (t.reply = some .err ↔ (portOut t).resp = some true) ∧ (t.reply ≠ some .err ↔ (portOut t).resp = some false) ∧
        (∀ v, (portOut t).rdata = some v ↔ t.reply = some (.data v)) ∧
        (p.write = false → ∀ r v, regAt p.addr = some r → regRead r s = some v →
          SameRegisters s t ∧ (portOut t).resp = some false ∧ (portOut t).rdata = some v) ∧
        (p.write = true → (portOut t).rdata = none)) ∧
    (p.rstN = true → p.sel = false → offerPort p s = s)

/-! ### Faults and the interrupt -/

/-- spec/60_exceptions.md R172, R173: a write to `CMD` that raises a fault answers `OKAY`, sets `FAULT`, `CAUSE` and `FINFO`, and
changes no other register; `irq` is then 1 if `CTRL.IE` is. -/
def Obligations.FaultEntryIsPrecise : Prop :=
  ∀ (s t : State) (w : Word) (rest : List HostAction), s.pending = .write 0x00 4 w :: rest → s.status.fault = false →
    step s = .next t → t.status.fault = true →
    t = { s with pending := rest, reply := some .okay, status := t.status, finfo := t.finfo } ∧ irq t = s.ctrl.ie ∧
    ((t.status.cause = some .keylen ∧ t.finfo = s.plen) ∨
      ((t.status.cause = some .illcmd ∨ t.status.cause = some .badrounds) ∧ t.finfo = w))

/-- spec/10_state.md R30, spec/60_exceptions.md R176: `FAULT` is set by a write to `CMD` alone, is cleared by a write to `STATUS` with
bit 0 set or a reset alone, and while it stays set `CAUSE` and `FINFO` keep the first fault. -/
def Obligations.FaultLatchChangesOnlyAsStated : Prop :=
  ∀ s t : State, step s = .next t →
    (s.status.fault = false → t.status.fault = true → ∃ w rest, s.pending = .write 0x00 4 w :: rest) ∧
    (s.status.fault = true → t.status.fault = false →
      ∃ rest, s.pending = .reset :: rest ∨ ∃ v, v.getLsbD 0 = true ∧ s.pending = .write 0x04 4 v :: rest) ∧
    (s.status.fault = true → t.status.fault = true → t.status = s.status ∧ t.finfo = s.finfo)

/-- spec/60_exceptions.md R174: while a fault is latched every write to `CMD` gets `ERR` and has no effect, and every other action
does what it does with nothing latched: same answer but for the reads of `STATUS` and `FINFO`, same effect on every register
but the latch. -/
def Obligations.FaultedStateRefusesCommandsOnly : Prop :=
  (∀ (s : State) (w : Word) (rest : List HostAction), s.status.fault = true → s.pending = .write 0x00 4 w :: rest →
    step s = .next { s with pending := rest, reply := some .err }) ∧
  ∀ (s : State) (a : HostAction) (rest : List HostAction), s.status.fault = true → s.pending = a :: rest →
    (∀ w, a ≠ .write 0x00 4 w) →
    ∃ t u, step s = .next t ∧ step { s with status := { fault := false, cause := none }, finfo := 0 } = .next u ∧
      t = { u with status := t.status, finfo := t.finfo, reply := t.reply } ∧
      ((∀ n, a ≠ .read 0x04 n ∧ a ≠ .read 0x0C n) → t.reply = u.reply)

/-- spec/60_exceptions.md R175: a write to `STATUS` with bit 0 set, while a fault is latched, clears `FAULT`, `CAUSE` and `FINFO` and
nothing else, and `irq` falls; every other write to `STATUS` changes nothing; the answer is `OKAY`; a reset clears it too. -/
def Obligations.StatusWriteClearsTheFault : Prop :=
  (∀ (s : State) (rest : List HostAction), s.pending = .reset :: rest →
    ∃ t, step s = .next t ∧ t.status = { fault := false, cause := none } ∧ t.finfo = 0) ∧
  ∀ (s : State) (v : Word) (rest : List HostAction), s.pending = .write 0x04 4 v :: rest →
    (s.status.fault = true → v.getLsbD 0 = true →
      ∃ t, step s = .next t ∧ irq t = false ∧
        t = { s with pending := rest, reply := some .okay, status := { fault := false, cause := none }, finfo := 0 }) ∧
    (s.status.fault = false ∨ v.getLsbD 0 = false → step s = .next { s with pending := rest, reply := some .okay })

/-- spec/60_exceptions.md R177: `irq` is bit 0 of `STATUS` and bit 0 of `CTRL`, a level: enabling it with a fault latched raises it at
once, masking it, clearing the fault and reset lower it, and a fault raised while it is enabled raises it. -/
def Obligations.IrqFollowsFaultAndEnable : Prop :=
  (∀ s : State, irq s = ((statusWord s.status).getLsbD 0 && (ctrlWord s.ctrl).getLsbD 0)) ∧
  ∀ (s : State) (v : Word) (rest : List HostAction),
    (s.pending = .write 0x08 4 v :: rest → ∃ t, step s = .next t ∧ irq t = (s.status.fault && v.getLsbD 0)) ∧
    (s.pending = .write 0x04 4 v :: rest → ∃ t, step s = .next t ∧ irq t = (irq s && !v.getLsbD 0)) ∧
    (s.pending = .reset :: rest → ∃ t, step s = .next t ∧ irq t = false) ∧
    (s.pending = .write 0x00 4 0xFFFFFFFF :: rest → ∃ t, step s = .next t ∧ irq t = s.ctrl.ie)

/-! ### Invariants -/

/-- spec/10_state.md R28, R30, R36: the invariants hold right after reset, whatever the host will do next. -/
def Obligations.InvariantsAtReset : Prop :=
  ∀ as : List HostAction, PermsConsistent { State.reset with pending := as } ∧ LatchConsistent { State.reset with pending := as }

/-- spec/10_state.md R28, as an invariant of every step from every state that meets it. -/
def Obligations.StepKeepsPermInvariant : Prop :=
  ∀ s t : State, PermsConsistent s → step s = .next t → PermsConsistent t

/-- spec/10_state.md R30, R31, spec/60_exceptions.md R165: what `STATUS` and `FINFO` hold together, kept by every step. -/
def Obligations.StepKeepsLatchInvariant : Prop :=
  ∀ s t : State, LatchConsistent s → step s = .next t → LatchConsistent t

/-- spec/10_state.md R28, and for the latch R30, R31 and spec/60_exceptions.md R165: in every reachable state, whatever the host does,
`PERM` is a permutation and `IPERM` its inverse, and the fault latch is consistent. -/
def Obligations.ReachableStatesAreConsistent : Prop :=
  ∀ s : State, Reachable s → PermsConsistent s ∧ LatchConsistent s

/-! ### The host's scripts -/

/-- spec/30_encoding.md R91, spec/00_scope.md R2: a script's actions run one by one are the steps of the machine with those actions
waiting, whatever waits behind them. -/
def Obligations.ScriptRunIsMachineRun : Prop :=
  ∀ (as : List HostAction) (s : State),
    ∃ t rs, runActions as s = some (t, rs) ∧ rs.length = as.length ∧ t.pending = s.pending ∧
      Sys2Proof.core.run as.length { s with pending := as ++ s.pending } = .next t

/-- spec/30_encoding.md R92: `ldkey`, `ldblk` and `ldpass` load their registers, `mvsk` copies `SK` to `KEY`, and none changes another
register, in any state. -/
def Obligations.PseudoLinesLoadRegisters : Prop :=
  ∀ (s : State) (x : B16),
    (∃ t, runScript [.ldkey x] s = some (t, []) ∧ SameRegisters { s with key := x } t) ∧
    (∃ t, runScript [.ldblk x] s = some (t, []) ∧ SameRegisters { s with blk := x } t) ∧
    (∃ t ws, runScript [.mvsk] s = some (t, ws) ∧ SameRegisters { s with key := s.sk } t ∧ bytesOfWords ws = s.sk.toList) ∧
    ∀ (text : List Char) (p : Bytes), asciiBytes text = some p → p.length ≤ 16 →
      ∃ t, runScript [.ldpass text] s = some (t, []) ∧
        SameRegisters { s with pass := t.pass, plen := BitVec.ofNat 32 p.length } t ∧
        t.pass.toList = p ++ List.replicate (16 - p.length) 0

/-- spec/44_engine.md R152: the host procedure, block by block with the hardware, computes the message-level functions, leaves the
key in `KEY` and raises no fault. -/
def Obligations.HostProcedureComputesMessages : Prop :=
  ∀ (s : State) (k : B16) (m : Bytes) (r : BitVec 16), s.status.fault = false → r ≠ 0 →
    (∃ t rs e, runActions (messageActions (.enc r) k m) s = some (t, rs) ∧
      encrypt Config.profile k m r.toNat = some e ∧ bytesOfWords (wordsRead rs) = e ∧ t.key = k ∧ t.status = s.status) ∧
    ∃ t rs e, runActions (messageActions (.dec r) k m) s = some (t, rs) ∧
      decrypt Config.profile k m r.toNat = some e ∧ bytesOfWords (wordsRead rs) = e ∧ t.key = k ∧ t.status = s.status
end

