-- ==== Sys2Proof/Laws/Bits.lean ====
section
/-! SUPPORT. What each pure function on bytes, bits and vectors gives, bit by bit or entry by entry; later proofs cite these
and do not unfold the folds. -/

namespace Sys2Proof.Machine

/-! ### Rotations -/

theorem rotr3_rotl3 : ∀ b : Byte, rotr3 (rotl3 b) = b := by decide

theorem rotl3_rotr3 : ∀ b : Byte, rotl3 (rotr3 b) = b := by decide

theorem getLsbD_rotl3 : ∀ (b : Byte) (j : Fin 8), (rotl3 b).getLsbD ((j.val + 3) % 8) = b.getLsbD j.val := by decide

theorem getLsbD_rotr3 : ∀ (b : Byte) (j : Fin 8), (rotr3 b).getLsbD j.val = b.getLsbD ((j.val + 3) % 8) := by decide

/-! ### Bytes, seen by their bits -/

/-- Two bytes with the same eight bits are equal. -/
theorem byte_eq_of_bits {a b : Byte} (h : ∀ i : Fin 8, a.getLsbD i.val = b.getLsbD i.val) : a = b :=
  BitVec.eq_of_getLsbD_eq fun i hi => h ⟨i, hi⟩

/-- Two 16-byte sequences with the same sixteen bytes are equal. -/
theorem b16_eq_of_bytes {a b : B16} (h : ∀ i : Fin 16, a[i] = b[i]) : a = b :=
  Vector.ext fun i hi => h ⟨i, hi⟩

/-- Two vectors with the same eight entries are equal. -/
theorem perm_eq_of_entries {p q : Perm} (h : ∀ i : Fin 8, p[i] = q[i]) : p = q :=
  Vector.ext fun i hi => h ⟨i, hi⟩

/-! ### Lane-wise functions -/

@[simp] theorem getElem_map16 (f : Byte → Byte) (x : B16) (i : Nat) (h : i < 16) : (map16 f x)[i] = f x[i] := by
  simp [map16]

@[simp] theorem getElem_xor16 (x y : B16) (i : Nat) (h : i < 16) : (xor16 x y)[i] = x[i] ^^^ y[i] := by simp [xor16]

@[simp] theorem getElem_roundE (p : Perm) (k b : B16) (i : Nat) (h : i < 16) :
    (roundE p k b)[i] = laneE p k[i] b[i] := by simp [roundE]

@[simp] theorem getElem_roundD (p : Perm) (k b : B16) (i : Nat) (h : i < 16) :
    (roundD p k b)[i] = laneD p k[i] b[i] := by simp [roundD]

@[simp] theorem getElem_nextRoundKey (k : B16) (i : Nat) (h : i < 16) : (nextRoundKey k)[i] = rotl3 k[i] := by
  simp [nextRoundKey]

@[simp] theorem getElem_previousRoundKey (k : B16) (i : Nat) (h : i < 16) : (previousRoundKey k)[i] = rotr3 k[i] := by
  simp [previousRoundKey]

/-- `xor16` is self-inverse (R17). -/
theorem xor16_xor16 (x y : B16) : xor16 (xor16 x y) y = x :=
  b16_eq_of_bytes fun i => by simp

/-! ### Permutation vectors -/

/-- A vector is valid exactly when its entries are distinct. -/
theorem valid_iff_injective (p : Perm) : Perm.Valid p ↔ ∀ i j : Fin 8, p[i] = p[j] → i = j := by
  unfold Perm.Valid
  rw [List.nodup_iff_injective_get]
  have hl : p.toList.length = 8 := by simp
  constructor
  · intro h i j hij
    have := @h ⟨i.val, by omega⟩ ⟨j.val, by omega⟩ (by simpa using hij)
    exact Fin.ext (by simpa using this)
  · intro h a b hab
    have := h ⟨a.val, by omega⟩ ⟨b.val, by omega⟩ (by simpa using hab)
    exact Fin.ext (by simpa using this)

/-- A valid vector takes every value. -/
theorem valid_surjective {p : Perm} (h : Perm.Valid p) (m : Fin 8) : ∃ i : Fin 8, p[i] = m :=
  Finite.surjective_of_injective (f := fun i : Fin 8 => p[i]) (fun i j hij => (valid_iff_injective p).1 h i j hij) m

/-- Entry by entry, what a swap gives. -/
theorem getElem_swapEntries (p : Perm) (i j m : Fin 8) :
    (swapEntries p i j)[m] = if m = j then p[i] else if m = i then p[j] else p[m] := by
  simp only [swapEntries, Fin.getElem_fin, Vector.getElem_set, Fin.ext_iff]
  split <;> split <;> simp_all [eq_comm]

/-- A swap keeps the entries distinct. -/
theorem swapEntries_valid {p : Perm} (h : Perm.Valid p) (i j : Fin 8) : Perm.Valid (swapEntries p i j) := by
  rw [valid_iff_injective] at h ⊢
  intro a b
  have hi := h
  simp only [getElem_swapEntries]
  split <;> split <;> (try split) <;> (try split) <;> intro hab <;> have := h _ _ hab <;> simp_all

theorem identity_valid : Perm.Valid Perm.identity := by decide

/-- Bit `i` of `bitperm(P, b)` is bit `P[i]` of `b` (R120). -/
theorem getLsbD_bitperm (p : Perm) (b : Byte) (i : Fin 8) : (bitperm p b).getLsbD i.val = b.getLsbD p[i].val := by
  simp only [bitperm, indices8, List.foldl]
  fin_cases i <;> simp

/-- `invert` gives `q` with `q[p[i]] = i`, for a valid `p` (R113). -/
theorem getElem_invert {p : Perm} (h : Perm.Valid p) (i : Fin 8) : (invert p)[p[i]] = i := by
  have hne : ∀ j : Fin 8, j ≠ i → (p[j] : Fin 8).val ≠ (p[i] : Fin 8).val := fun j hj he =>
    hj ((valid_iff_injective p).1 h j i (Fin.ext he))
  have h0 := hne 0
  have h1 := hne 1
  have h2 := hne 2
  have h3 := hne 3
  have h4 := hne 4
  have h5 := hne 5
  have h6 := hne 6
  have h7 := hne 7
  simp only [invert, indices8, List.foldl, Fin.getElem_fin, Vector.getElem_set]
  clear hne
  fin_cases i <;> simp_all

end Sys2Proof.Machine
end

