-- ==== Sys2Proof/Laws/State.lean ====
section
/-! SUPPORT. One lemma per field of State per shared update, true by rfl, so that no later proof unfolds a record update. -/

namespace Sys2Proof.Machine

variable (s : State)

@[simp] theorem raiseFault_pass (c : Cause) (v : Word) : (raiseFault c v s).pass = s.pass := rfl
@[simp] theorem raiseFault_plen (c : Cause) (v : Word) : (raiseFault c v s).plen = s.plen := rfl
@[simp] theorem raiseFault_key (c : Cause) (v : Word) : (raiseFault c v s).key = s.key := rfl
@[simp] theorem raiseFault_sk (c : Cause) (v : Word) : (raiseFault c v s).sk = s.sk := rfl
@[simp] theorem raiseFault_blk (c : Cause) (v : Word) : (raiseFault c v s).blk = s.blk := rfl
@[simp] theorem raiseFault_perm (c : Cause) (v : Word) : (raiseFault c v s).perm = s.perm := rfl
@[simp] theorem raiseFault_iperm (c : Cause) (v : Word) : (raiseFault c v s).iperm = s.iperm := rfl
@[simp] theorem raiseFault_status (c : Cause) (v : Word) : (raiseFault c v s).status = faultedStatus c := rfl
@[simp] theorem raiseFault_ctrl (c : Cause) (v : Word) : (raiseFault c v s).ctrl = s.ctrl := rfl
@[simp] theorem raiseFault_finfo (c : Cause) (v : Word) : (raiseFault c v s).finfo = v := rfl
@[simp] theorem raiseFault_pending (c : Cause) (v : Word) : (raiseFault c v s).pending = s.pending := rfl
@[simp] theorem raiseFault_reply (c : Cause) (v : Word) : (raiseFault c v s).reply = s.reply := rfl

@[simp] theorem clearFault_pass : (clearFault s).pass = s.pass := rfl
@[simp] theorem clearFault_plen : (clearFault s).plen = s.plen := rfl
@[simp] theorem clearFault_key : (clearFault s).key = s.key := rfl
@[simp] theorem clearFault_sk : (clearFault s).sk = s.sk := rfl
@[simp] theorem clearFault_blk : (clearFault s).blk = s.blk := rfl
@[simp] theorem clearFault_perm : (clearFault s).perm = s.perm := rfl
@[simp] theorem clearFault_iperm : (clearFault s).iperm = s.iperm := rfl
@[simp] theorem clearFault_status : (clearFault s).status = clearStatus := rfl
@[simp] theorem clearFault_ctrl : (clearFault s).ctrl = s.ctrl := rfl
@[simp] theorem clearFault_finfo : (clearFault s).finfo = 0 := rfl
@[simp] theorem clearFault_pending : (clearFault s).pending = s.pending := rfl
@[simp] theorem clearFault_reply : (clearFault s).reply = s.reply := rfl

@[simp] theorem withKey_pass (k : B16) : (withKey k s).pass = s.pass := rfl
@[simp] theorem withKey_plen (k : B16) : (withKey k s).plen = s.plen := rfl
@[simp] theorem withKey_key (k : B16) : (withKey k s).key = k := rfl
@[simp] theorem withKey_sk (k : B16) : (withKey k s).sk = s.sk := rfl
@[simp] theorem withKey_blk (k : B16) : (withKey k s).blk = s.blk := rfl
@[simp] theorem withKey_perm (k : B16) : (withKey k s).perm = s.perm := rfl
@[simp] theorem withKey_iperm (k : B16) : (withKey k s).iperm = s.iperm := rfl
@[simp] theorem withKey_status (k : B16) : (withKey k s).status = s.status := rfl
@[simp] theorem withKey_ctrl (k : B16) : (withKey k s).ctrl = s.ctrl := rfl
@[simp] theorem withKey_finfo (k : B16) : (withKey k s).finfo = s.finfo := rfl
@[simp] theorem withKey_pending (k : B16) : (withKey k s).pending = s.pending := rfl
@[simp] theorem withKey_reply (k : B16) : (withKey k s).reply = s.reply := rfl

@[simp] theorem recordPerm_pass (p : Perm) : (recordPerm p s).pass = s.pass := rfl
@[simp] theorem recordPerm_plen (p : Perm) : (recordPerm p s).plen = s.plen := rfl
@[simp] theorem recordPerm_key (p : Perm) : (recordPerm p s).key = s.key := rfl
@[simp] theorem recordPerm_sk (p : Perm) : (recordPerm p s).sk = s.sk := rfl
@[simp] theorem recordPerm_blk (p : Perm) : (recordPerm p s).blk = s.blk := rfl
@[simp] theorem recordPerm_perm (p : Perm) : (recordPerm p s).perm = p := rfl
@[simp] theorem recordPerm_iperm (p : Perm) : (recordPerm p s).iperm = invert p := rfl
@[simp] theorem recordPerm_status (p : Perm) : (recordPerm p s).status = s.status := rfl
@[simp] theorem recordPerm_ctrl (p : Perm) : (recordPerm p s).ctrl = s.ctrl := rfl
@[simp] theorem recordPerm_finfo (p : Perm) : (recordPerm p s).finfo = s.finfo := rfl
@[simp] theorem recordPerm_pending (p : Perm) : (recordPerm p s).pending = s.pending := rfl
@[simp] theorem recordPerm_reply (p : Perm) : (recordPerm p s).reply = s.reply := rfl

@[simp] theorem recordRound_pass (x k : B16) (p : Perm) : (recordRound x k p s).pass = s.pass := rfl
@[simp] theorem recordRound_plen (x k : B16) (p : Perm) : (recordRound x k p s).plen = s.plen := rfl
@[simp] theorem recordRound_key (x k : B16) (p : Perm) : (recordRound x k p s).key = s.key := rfl
@[simp] theorem recordRound_sk (x k : B16) (p : Perm) : (recordRound x k p s).sk = k := rfl
@[simp] theorem recordRound_blk (x k : B16) (p : Perm) : (recordRound x k p s).blk = x := rfl
@[simp] theorem recordRound_perm (x k : B16) (p : Perm) : (recordRound x k p s).perm = p := rfl
@[simp] theorem recordRound_iperm (x k : B16) (p : Perm) : (recordRound x k p s).iperm = invert p := rfl
@[simp] theorem recordRound_status (x k : B16) (p : Perm) : (recordRound x k p s).status = s.status := rfl
@[simp] theorem recordRound_ctrl (x k : B16) (p : Perm) : (recordRound x k p s).ctrl = s.ctrl := rfl
@[simp] theorem recordRound_finfo (x k : B16) (p : Perm) : (recordRound x k p s).finfo = s.finfo := rfl
@[simp] theorem recordRound_pending (x k : B16) (p : Perm) : (recordRound x k p s).pending = s.pending := rfl
@[simp] theorem recordRound_reply (x k : B16) (p : Perm) : (recordRound x k p s).reply = s.reply := rfl

@[simp] theorem withReply_pass (r : Reply) : (withReply r s).pass = s.pass := rfl
@[simp] theorem withReply_plen (r : Reply) : (withReply r s).plen = s.plen := rfl
@[simp] theorem withReply_key (r : Reply) : (withReply r s).key = s.key := rfl
@[simp] theorem withReply_sk (r : Reply) : (withReply r s).sk = s.sk := rfl
@[simp] theorem withReply_blk (r : Reply) : (withReply r s).blk = s.blk := rfl
@[simp] theorem withReply_perm (r : Reply) : (withReply r s).perm = s.perm := rfl
@[simp] theorem withReply_iperm (r : Reply) : (withReply r s).iperm = s.iperm := rfl
@[simp] theorem withReply_status (r : Reply) : (withReply r s).status = s.status := rfl
@[simp] theorem withReply_ctrl (r : Reply) : (withReply r s).ctrl = s.ctrl := rfl
@[simp] theorem withReply_finfo (r : Reply) : (withReply r s).finfo = s.finfo := rfl
@[simp] theorem withReply_pending (r : Reply) : (withReply r s).pending = s.pending := rfl
@[simp] theorem withReply_reply (r : Reply) : (withReply r s).reply = some r := rfl

@[simp] theorem withPending_pass (as : List HostAction) : (withPending as s).pass = s.pass := rfl
@[simp] theorem withPending_plen (as : List HostAction) : (withPending as s).plen = s.plen := rfl
@[simp] theorem withPending_key (as : List HostAction) : (withPending as s).key = s.key := rfl
@[simp] theorem withPending_sk (as : List HostAction) : (withPending as s).sk = s.sk := rfl
@[simp] theorem withPending_blk (as : List HostAction) : (withPending as s).blk = s.blk := rfl
@[simp] theorem withPending_perm (as : List HostAction) : (withPending as s).perm = s.perm := rfl
@[simp] theorem withPending_iperm (as : List HostAction) : (withPending as s).iperm = s.iperm := rfl
@[simp] theorem withPending_status (as : List HostAction) : (withPending as s).status = s.status := rfl
@[simp] theorem withPending_ctrl (as : List HostAction) : (withPending as s).ctrl = s.ctrl := rfl
@[simp] theorem withPending_finfo (as : List HostAction) : (withPending as s).finfo = s.finfo := rfl
@[simp] theorem withPending_pending (as : List HostAction) : (withPending as s).pending = as := rfl
@[simp] theorem withPending_reply (as : List HostAction) : (withPending as s).reply = s.reply := rfl

@[simp] theorem resetMachine_pass : (resetMachine s).pass = State.reset.pass := rfl
@[simp] theorem resetMachine_plen : (resetMachine s).plen = State.reset.plen := rfl
@[simp] theorem resetMachine_key : (resetMachine s).key = State.reset.key := rfl
@[simp] theorem resetMachine_sk : (resetMachine s).sk = State.reset.sk := rfl
@[simp] theorem resetMachine_blk : (resetMachine s).blk = State.reset.blk := rfl
@[simp] theorem resetMachine_perm : (resetMachine s).perm = State.reset.perm := rfl
@[simp] theorem resetMachine_iperm : (resetMachine s).iperm = State.reset.iperm := rfl
@[simp] theorem resetMachine_status : (resetMachine s).status = State.reset.status := rfl
@[simp] theorem resetMachine_ctrl : (resetMachine s).ctrl = State.reset.ctrl := rfl
@[simp] theorem resetMachine_finfo : (resetMachine s).finfo = State.reset.finfo := rfl
@[simp] theorem resetMachine_pending : (resetMachine s).pending = s.pending := rfl
@[simp] theorem resetMachine_reply : (resetMachine s).reply = State.reset.reply := rfl

@[simp] theorem faultedStatus_fault (c : Cause) : (faultedStatus c).fault = true := rfl
@[simp] theorem faultedStatus_cause (c : Cause) : (faultedStatus c).cause = some c := rfl
@[simp] theorem clearStatus_fault : clearStatus.fault = false := rfl
@[simp] theorem clearStatus_cause : clearStatus.cause = none := rfl

end Sys2Proof.Machine
end

