-- ==== Sys2Proof/Laws/Exec.lean ====
section
/-! SUPPORT. What each command answers, said once: `exec` is total, and its next state is `commandAt` at the machine's instance
of the OPEN parameters. Later proofs rewrite with these and do not unfold the meanings. -/

namespace Sys2Proof.Machine

/-- The state a command leaves, at an instance of the OPEN parameters (R7). -/
def commandAt (c : Profile) (i : Instr) (s : State) : State :=
  match i with
  | .nop => s
  | .derive => deriveAt c s
  | .pgen => pgenAt c s
  | .renc => rencAt c s
  | .rdec => rdecAt c s
  | .knext => withKey (nextRoundKey s.key) s
  | .kprev => withKey (previousRoundKey s.key) s
  | .enc r => encAt c r s
  | .dec r => decAt c r s

theorem exec_eq_commandAt (i : Instr) (s : State) : exec i s = .next (commandAt Config.profile i s) := by
  cases i <;> rfl

/-! ### The shared operations -/

/-- Fault entry changes the latch and nothing else (R173). -/
theorem raiseFault_frame (c : Cause) (v : Word) (s : State) :
    raiseFault c v s = { s with status := { fault := true, cause := some c }, finfo := v } := rfl

/-- The return from a fault changes the latch and nothing else (R175). -/
theorem clearFault_frame (s : State) :
    clearFault s = { s with status := { fault := false, cause := none }, finfo := 0 } := rfl

/-- The results of the rounds and nothing else. -/
theorem recordRound_frame (x k : B16) (p : Perm) (s : State) :
    recordRound x k p s = { s with blk := x, sk := k, perm := p, iperm := invert p } := rfl

/-! ### The commands that check an operand -/

/-- `DERIVE` with a passphrase of at most 16 bytes (R102). -/
theorem deriveAt_of_le (c : Profile) (s : State) (h : s.plen.toNat ≤ 16) :
    deriveAt c s = withKey (keyFromWords (c.kdfWords (passphrase s)) (passphrase s)) s := by
  have h1 : ¬ s.plen > 16 := by
    simp only [gt_iff_lt, BitVec.lt_def]
    exact Nat.not_lt.2 h
  rw [deriveAt, if_neg h1]

/-- `DERIVE` with a longer one (R102). -/
theorem deriveAt_of_gt (c : Profile) (s : State) (h : s.plen.toNat > 16) :
    deriveAt c s = raiseFault .keylen s.plen s := by
  have h1 : s.plen > 16 := by
    simp only [gt_iff_lt, BitVec.lt_def]
    exact h
  rw [deriveAt, if_pos h1]

/-- A byte of the key (R101). -/
theorem getElem_keyFromWords (ws : DWord × DWord) (p : Bytes) (i : Nat) (h : i < 16) :
    (keyFromWords ws p)[i] = byteOfDWord (if i < 8 then ws.1 else ws.2) (i % 8) ^^^ (p[i]?).getD 0 := by
  simp only [keyFromWords, Vector.getElem_ofFn]
  cases p[i]? <;> simp

/-- A byte of a 64-bit word as a quotient. -/
theorem byteOfDWord_eq (w : DWord) (k : Nat) : byteOfDWord w k = BitVec.ofNat 8 (w.toNat / 256 ^ k) := by
  apply BitVec.eq_of_toNat_eq
  simp [byteOfDWord, Nat.shiftRight_eq_div_pow, Nat.pow_mul]

/-- A byte of the passphrase operand. -/
theorem passphrase_get (s : State) (i : Nat) (hi : i < 16) :
    ((passphrase s)[i]?).getD 0 = if i < s.plen.toNat then s.pass[i] else 0 := by
  simp only [passphrase, List.getElem?_take]
  split <;> simp [hi]

/-- `encBlock` has a result exactly for `R >= 1` (R155). -/
theorem encBlock_pos (c : Profile) (k b : B16) (r : BitVec 16) (h : r ≠ 0) :
    encBlock c k b (roundCount r) = some (encLoop c (r.toNat - 1) k (roundEncrypt c k b)) := by
  have h1 : r.toNat ≠ 0 := fun h0 => h (BitVec.eq_of_toNat_eq (by simpa using h0))
  obtain ⟨n, hn⟩ := Nat.exists_eq_succ_of_ne_zero h1
  simp [roundCount, hn, encBlock]

/-- `decBlock` has a result exactly for `R >= 1` (R155). -/
theorem decBlock_pos (c : Profile) (k b : B16) (r : BitVec 16) (h : r ≠ 0) :
    decBlock c k b (roundCount r) = some (decLoop c (r.toNat - 1) k (roundDecrypt c k b)) := by
  have h1 : r.toNat ≠ 0 := fun h0 => h (BitVec.eq_of_toNat_eq (by simpa using h0))
  obtain ⟨n, hn⟩ := Nat.exists_eq_succ_of_ne_zero h1
  simp [roundCount, hn, decBlock]

/-- `ENC R`, `R >= 1` (R146). -/
theorem encAt_of_pos (c : Profile) (r : BitVec 16) (s : State) (h : r ≠ 0) :
    encAt c r s =
      let p := encLoop c (r.toNat - 1) s.key (roundEncrypt c s.key s.blk)
      recordRound p.1 p.2 (generate c p.2) s := by
  simp [encAt, finishRounds, encBlock_pos c s.key s.blk r h]

/-- `DEC R`, `R >= 1` (R147). -/
theorem decAt_of_pos (c : Profile) (r : BitVec 16) (s : State) (h : r ≠ 0) :
    decAt c r s =
      let p := decLoop c (r.toNat - 1) s.key (roundDecrypt c s.key s.blk)
      recordRound p.1 p.2 (generate c p.2) s := by
  simp [decAt, finishRounds, decBlock_pos c s.key s.blk r h]

/-- `ENC 0` (R168). -/
theorem encAt_zero (c : Profile) (s : State) : encAt c 0 s = raiseFault .badrounds 0x00000007 s := rfl

/-- `DEC 0` (R168). -/
theorem decAt_zero (c : Profile) (s : State) : decAt c 0 s = raiseFault .badrounds 0x00000008 s := rfl

/-- Every command leaves one of five shapes: the same state, a fault entry, a new key, a new vector, or the results of
rounds; the vector written is always one the generator makes. -/
theorem commandAt_cases (c : Profile) (i : Instr) (s : State) :
    commandAt c i s = s ∨ (i = .derive ∧ s.plen.toNat > 16 ∧ commandAt c i s = raiseFault .keylen s.plen s) ∨
    ((i = .enc 0 ∨ i = .dec 0) ∧ commandAt c i s = raiseFault .badrounds (encode i) s) ∨
    ((i = .derive ∨ i = .knext ∨ i = .kprev) ∧ ∃ k, commandAt c i s = withKey k s) ∨
    (i = .pgen ∧ commandAt c i s = recordPerm (generate c s.key) s) ∨
    ((i = .renc ∨ i = .rdec ∨ (∃ r, i = .enc r) ∨ ∃ r, i = .dec r) ∧
      ∃ x k, commandAt c i s = recordRound x k (generate c k) s) := by
  cases i with
  | nop => exact .inl rfl
  | derive =>
    rcases Nat.lt_or_ge 16 s.plen.toNat with h | h
    · exact .inr (.inl ⟨rfl, h, deriveAt_of_gt c s h⟩)
    · exact .inr (.inr (.inr (.inl ⟨.inl rfl, _, deriveAt_of_le c s h⟩)))
  | pgen => exact .inr (.inr (.inr (.inr (.inl ⟨rfl, rfl⟩))))
  | renc => exact .inr (.inr (.inr (.inr (.inr ⟨.inl rfl, _, _, rfl⟩))))
  | rdec => exact .inr (.inr (.inr (.inr (.inr ⟨.inr (.inl rfl), _, _, rfl⟩))))
  | knext => exact .inr (.inr (.inr (.inl ⟨.inr (.inl rfl), _, rfl⟩)))
  | kprev => exact .inr (.inr (.inr (.inl ⟨.inr (.inr rfl), _, rfl⟩)))
  | enc r =>
    by_cases h : r = 0
    · subst h; exact .inr (.inr (.inl ⟨.inl rfl, encAt_zero c s⟩))
    · exact .inr (.inr (.inr (.inr (.inr ⟨.inr (.inr (.inl ⟨r, rfl⟩)), _, _, encAt_of_pos c r s h⟩))))
  | dec r =>
    by_cases h : r = 0
    · subst h; exact .inr (.inr (.inl ⟨.inr rfl, decAt_zero c s⟩))
    · exact .inr (.inr (.inr (.inr (.inr ⟨.inr (.inr (.inr ⟨r, rfl⟩)), _, _, decAt_of_pos c r s h⟩))))

end Sys2Proof.Machine
end

