-- ==== Sys2Proof/Laws/Bus.lean ====
section
/-! SUPPORT. What the host port does, said once per operation: the register map and its inverse, the words of a 16-byte
register, the kinds of transaction, and the one thing a step can do (`step_cases`). -/

namespace Sys2Proof.Machine

/-! ### The register map -/

theorem regAt_offsetOf (r : RegName) : regAt (offsetOf r) = some r := by
  cases r with
  | pass w => fin_cases w <;> rfl
  | key w => fin_cases w <;> rfl
  | sk w => fin_cases w <;> rfl
  | blk w => fin_cases w <;> rfl
  | _ => rfl

theorem legalAccess_offsetOf (r : RegName) : legalAccess (offsetOf r) 4 = true := by
  cases r with
  | pass w => fin_cases w <;> rfl
  | key w => fin_cases w <;> rfl
  | sk w => fin_cases w <;> rfl
  | blk w => fin_cases w <;> rfl
  | _ => rfl

/-- The map names a register at one offset only (R51: none aliases another). -/
theorem offsetOf_of_regAt : ∀ (off : BitVec 8) (r : RegName), regAt off = some r → off = offsetOf r := by
  have key : ∀ off : BitVec 8, (match regAt off with | none => true | some r => decide (off = offsetOf r)) = true := by
    decide +kernel
  intro off r h
  have := key off
  rw [h] at this
  simpa using this

/-! ### The words of a 16-byte register -/

/-- Byte `j` of word `Xw` is byte `4w + j` of the register (R56). -/
theorem extract_wordOf (x : B16) (w j : Fin 4) :
    (wordOf x w).extractLsb' (8 * j.val) 8 = x[4 * w.val + j.val] := by
  apply BitVec.eq_of_getLsbD_eq
  intro i hi
  fin_cases j <;> interval_cases i <;> simp [wordOf]

/-- A write of word `Xw`, byte by byte (R56). -/
theorem getElem_withWord (x : B16) (w : Fin 4) (v : Word) (i : Nat) (h : i < 16) :
    (withWord x w v)[i] = if i / 4 = w.val then v.extractLsb' (8 * (i % 4)) 8 else x[i] := by
  simp only [withWord, Vector.getElem_set]
  split_ifs <;> first | rfl | omega | (congr 1; omega)

/-! ### The kinds of transaction -/

/-- A legal read of a register gives its word and changes nothing but the answer on the port (R55, R60). -/
theorem transact_read_reg (r : RegName) (s : State) (v : Word) (h : regRead r s = some v) :
    transact (.read (offsetOf r) 4) s = .next (withReply (.data v) s) := by
  simp [transact, readReply, legalAccess_offsetOf, regAt_offsetOf, h]

/-- A legal write of a register other than `CMD` stores and answers `OKAY` (R55, R60). -/
theorem transact_write_reg (r : RegName) (s t : State) (v : Word) (h : regWrite r v s = some t) :
    transact (.write (offsetOf r) 4 v) s = .next (withReply .okay t) := by
  cases r <;> first
    | (simp [regWrite] at h; done)
    | (simp only [transact, busWrite, legalAccess_offsetOf, regAt_offsetOf, h]; rfl)

/-- A write to `CMD` (R90). -/
theorem transact_cmd (w : Word) (s : State) : transact (.write 0x00 4 w) s = cmdWrite w s := rfl

/-- A write to `CMD` of a command word, nothing latched (R90). -/
theorem cmdWrite_command (w : Word) (i : Instr) (s : State) (hf : s.status.fault = false) (hd : decode w = .command i) :
    cmdWrite w s = .next (commandAt Config.profile i (withReply .okay s)) := by
  simp [cmdWrite, hf, hd, exec_eq_commandAt]

/-- A write to `CMD` of an illegal word, nothing latched (R167). -/
theorem cmdWrite_illegal (w : Word) (why : Reject) (s : State) (hf : s.status.fault = false)
    (hd : decode w = .illegal why) : cmdWrite w s = .next (raiseFault .illcmd w (withReply .okay s)) := by
  simp [cmdWrite, hf, hd]

/-- A write to `CMD` with a fault latched (R174). -/
theorem cmdWrite_faulted (w : Word) (s : State) (hf : s.status.fault = true) :
    cmdWrite w s = .next (withReply .err s) := by
  simp [cmdWrite, hf]

/-- Every host action is one of these: an answer alone, a write of a register that is no command, a command write (refused,
illegal, or run), or a reset. -/
theorem transact_cases (a : HostAction) (s : State) :
    (∃ r, transact a s = .next (withReply r s)) ∨
    (∃ r v t, a = .write (offsetOf r) 4 v ∧ regWrite r v s = some t ∧ transact a s = .next (withReply .okay t)) ∨
    (∃ w why, a = .write 0x00 4 w ∧ s.status.fault = false ∧ decode w = .illegal why ∧
      transact a s = .next (raiseFault .illcmd w (withReply .okay s))) ∨
    (∃ w i, a = .write 0x00 4 w ∧ s.status.fault = false ∧ decode w = .command i ∧
      transact a s = .next (commandAt Config.profile i (withReply .okay s))) ∨
    (a = .reset ∧ transact a s = .next (resetMachine s)) := by
  cases a with
  | read off n => exact .inl ⟨_, rfl⟩
  | reset => exact .inr (.inr (.inr (.inr ⟨rfl, rfl⟩)))
  | write off n v =>
    by_cases hl : legalAccess off n = true
    case neg => exact .inl ⟨.err, by simp [transact, busWrite, hl]⟩
    have hn : n = 4 := by
      simp [legalAccess] at hl
      exact hl.1
    subst hn
    cases hr : regAt off with
    | none => exact .inl ⟨.err, by simp [transact, busWrite, hl, hr]⟩
    | some r =>
      have ho := offsetOf_of_regAt off r hr
      subst ho
      cases hw : regWrite r v s with
      | some t => exact .inr (.inl ⟨r, v, t, rfl, hw, transact_write_reg r s t v hw⟩)
      | none =>
        by_cases hc : r = .cmd
        · subst hc
          by_cases hf : s.status.fault = true
          · exact .inl ⟨.err, cmdWrite_faulted v s hf⟩
          have hf : s.status.fault = false := by simpa using hf
          cases hd : decode v with
          | illegal why => exact .inr (.inr (.inl ⟨v, why, rfl, hf, hd, cmdWrite_illegal v why s hf hd⟩))
          | command i => exact .inr (.inr (.inr (.inl ⟨v, i, rfl, hf, hd, cmdWrite_command v i s hf hd⟩)))
        · refine .inl ⟨.err, ?_⟩
          cases r <;> first
            | exact absurd rfl hc
            | (simp [regWrite] at hw; done)
            | (simp only [transact, busWrite, hl, hr, hw]; rfl)

/-! ### The step -/

theorem step_idle (s : State) (h : s.pending = []) : step s = .next s := by simp [step, stepAction, h]

theorem step_action (s : State) (a : HostAction) (rest : List HostAction) (h : s.pending = a :: rest) :
    step s = transact a (withPending rest s) := by simp [step, stepAction, h]

/-- The one thing a step can do: wait, or perform the host's next action. -/
theorem step_cases (s : State) :
    (s.pending = [] ∧ step s = .next s) ∨
    ∃ a rest, s.pending = a :: rest ∧ step s = transact a (withPending rest s) := by
  cases h : s.pending with
  | nil => exact .inl ⟨rfl, step_idle s h⟩
  | cons a rest => exact .inr ⟨a, rest, rfl, step_action s a rest h⟩

end Sys2Proof.Machine
end

