-- ==== Sys2Proof/Laws/Decode.lean ====
section
/-! SUPPORT. The command word's fields: what a laid-out word holds, that a word is its three fields, the fields as numbers, and
when the decoder rejects, said over the fields. -/

namespace Sys2Proof

@[simp] theorem fieldZ_wordOfFields (r : BitVec 16) (op : Byte) : fieldZ (wordOfFields r op) = 0 := by
  apply BitVec.eq_of_getLsbD_eq
  intro i hi
  simp only [fieldZ, wordOfFields, BitVec.getLsbD_extractLsb', BitVec.getLsbD_append]
  interval_cases i <;> simp

@[simp] theorem fieldOP_wordOfFields (r : BitVec 16) (op : Byte) : fieldOP (wordOfFields r op) = op := by
  apply BitVec.eq_of_getLsbD_eq
  intro i hi
  simp only [fieldOP, wordOfFields, BitVec.getLsbD_extractLsb', BitVec.getLsbD_append]
  interval_cases i <;> simp

@[simp] theorem fieldR_wordOfFields (r : BitVec 16) (op : Byte) : fieldR (wordOfFields r op) = r := by
  apply BitVec.eq_of_getLsbD_eq
  intro i hi
  simp only [fieldR, wordOfFields, BitVec.getLsbD_extractLsb', BitVec.getLsbD_append]
  interval_cases i <;> simp

/-- A word with `Z = 0` is the word of its other two fields (R80). -/
theorem wordOfFields_of_fieldZ (w : Word) (h : fieldZ w = 0) : wordOfFields (fieldR w) (fieldOP w) = w := by
  rw [wordOfFields, show (0#8 : Byte) = fieldZ w from h.symm]
  apply BitVec.eq_of_getLsbD_eq
  intro i hi
  simp only [fieldZ, fieldOP, fieldR, BitVec.getLsbD_extractLsb', BitVec.getLsbD_append]
  interval_cases i <;> simp

/-- `Z` as a number. -/
theorem fieldZ_toNat (w : Word) : (fieldZ w).toNat = w.toNat / 2 ^ 24 := by
  have := w.isLt
  simp [fieldZ, BitVec.extractLsb'_toNat, Nat.shiftRight_eq_div_pow]
  omega

/-- `OP` as a number. -/
theorem fieldOP_toNat (w : Word) : (fieldOP w).toNat = w.toNat % 256 := by
  simp [fieldOP, BitVec.extractLsb'_toNat]

/-- `R` as a number. -/
theorem fieldR_toNat (w : Word) : (fieldR w).toNat = w.toNat / 256 % 65536 := by
  simp [fieldR, BitVec.extractLsb'_toNat, Nat.shiftRight_eq_div_pow]

/-- The decoder rejects exactly the fields of R84. -/
theorem decodeFields_illegal_iff (z op : Byte) (r : BitVec 16) :
    (∃ why, decodeFields z op r = .illegal why) ↔ z ≠ 0 ∨ op > 0x08 ∨ (op ≤ 0x06 ∧ r ≠ 0) := by
  unfold decodeFields
  by_cases hz : z ≠ 0
  · rw [if_pos hz]
    exact ⟨fun _ => .inl hz, fun _ => ⟨_, rfl⟩⟩
  by_cases ho : op > 0x08
  · rw [if_neg hz, if_pos ho]
    exact ⟨fun _ => .inr (.inl ho), fun _ => ⟨_, rfl⟩⟩
  by_cases hr : op ≤ 0x06 ∧ r ≠ 0
  · rw [if_neg hz, if_neg ho, if_pos hr]
    exact ⟨fun _ => .inr (.inr hr), fun _ => ⟨_, rfl⟩⟩
  rw [if_neg hz, if_neg ho, if_neg hr]
  refine ⟨?_, fun h => absurd h (by tauto)⟩
  rintro ⟨why, h⟩
  exfalso
  revert h
  split_ifs <;> simp

/-- The word of a command decodes to it, for the fields of a format R word. -/
theorem decode_wordOfFields (r : BitVec 16) (op : Byte) : decode (wordOfFields r op) = decodeFields 0 op r := by
  simp [decode]

end Sys2Proof
end

