-- ==== Sys2Proof/Laws/PerInstr.lean ====
section
/-! SUPPORT. Statements made of every command as syntax, one lemma per constructor. -/

namespace Sys2Proof.Laws.EncodesInItsRow

/-- The command's word is selected by the opcode-map row of its mnemonic (spec/30_encoding.md R83). -/
def Statement (i : Instr) : Prop :=
  ∃ row ∈ opcodeRows, row.mnemonic = i.mnemonic ∧ encode i &&& row.mask = row.bits

theorem nop : Statement .nop := by unfold Statement; decide

theorem derive : Statement .derive := by unfold Statement; decide

theorem pgen : Statement .pgen := by unfold Statement; decide

theorem renc : Statement .renc := by unfold Statement; decide

theorem rdec : Statement .rdec := by unfold Statement; decide

theorem knext : Statement .knext := by unfold Statement; decide

theorem kprev : Statement .kprev := by unfold Statement; decide

/-- The bits of a format R word that its row's mask keeps are the opcode's. -/
theorem mask_wordOfFields (r : BitVec 16) (op : Byte) : wordOfFields r op &&& 0xFF0000FF = op.setWidth 32 := by
  apply BitVec.eq_of_getLsbD_eq
  intro i hi
  simp only [wordOfFields, BitVec.getLsbD_and, BitVec.getLsbD_setWidth, BitVec.getLsbD_append]
  interval_cases i <;> simp

theorem enc (r : BitVec 16) : Statement (.enc r) :=
  ⟨{ mnemonic := "ENC", bits := 0x00000007, mask := 0xFF0000FF }, by simp [opcodeRows], rfl,
    by simpa [encode] using mask_wordOfFields r 0x07⟩

theorem dec (r : BitVec 16) : Statement (.dec r) :=
  ⟨{ mnemonic := "DEC", bits := 0x00000008, mask := 0xFF0000FF }, by simp [opcodeRows], rfl,
    by simpa [encode] using mask_wordOfFields r 0x08⟩

end Sys2Proof.Laws.EncodesInItsRow
end

