-- ==== Sys2Proof/Laws/Port.lean ====
section
/-! SUPPORT. What the ports ask for and what they show (spec/70_reset_and_hazards.md R189). -/

namespace Sys2Proof.Machine

/-- A low `rst_n` asks for a reset, whatever the other inputs are. -/
theorem action_reset (p : PortIn) (h : p.rstN = false) : p.action = some .reset := by simp [PortIn.action, h]

/-- With `rst_n` high and `sel` low nothing is asked for. -/
theorem action_idle (p : PortIn) (h : p.rstN = true) (hs : p.sel = false) : p.action = none := by simp [PortIn.action, h, hs]

/-- A selected transaction of size 2 is the 4-byte write or read of `addr`. -/
theorem action_size_two (p : PortIn) (h : p.rstN = true) (hs : p.sel = true) (hz : p.size = 2) :
    p.action = some (if p.write then .write p.addr 4 p.wdata else .read p.addr 4) := by
  cases hw : p.write <;> simp [PortIn.action, h, hs, hz, hw, bytesOfSize]

/-- No other size is 4 bytes. -/
theorem bytesOfSize_ne_four (z : BitVec 2) (h : z ≠ 2) : bytesOfSize z ≠ 4 := by revert h; revert z; decide

/-- `resp` is 1 exactly for `ERR`. -/
theorem portOut_resp_err (s : State) : (portOut s).resp = some true ↔ s.reply = some .err := by
  rcases h : s.reply with _ | r
  · simp [portOut, h]
  · cases r <;> simp [portOut, h, respOf]

/-- `rdata` holds a word exactly when a word was read, and then that word. -/
theorem portOut_rdata (s : State) (v : Word) : (portOut s).rdata = some v ↔ s.reply = some (.data v) := by
  rcases h : s.reply with _ | r
  · simp [portOut, h]
  · cases r <;> simp [portOut, h, rdataOf]

/-- Only a mapped offset that is a multiple of 4 is a register's. -/
theorem legalAccess_of_regAt (off : BitVec 8) (r : RegName) (h : regAt off = some r) : legalAccess off 4 = true := by
  rw [offsetOf_of_regAt off r h]
  exact legalAccess_offsetOf r

/-- What a register reads as does not depend on what the host has yet to do. -/
@[simp] theorem regRead_withPending (r : RegName) (as : List HostAction) (s : State) :
    regRead r (withPending as s) = regRead r s := by cases r <;> rfl

end Sys2Proof.Machine
end

