-- ==== Sys2Proof/Laws/Script.lean ====
section
/-! SUPPORT. Host actions and what waits behind them: an action does the same whatever is still to come, and a sequence of
actions is run piece by piece. -/

namespace Sys2Proof.Machine

/-- A command does not look at the host's list. -/
theorem commandAt_withPending (c : Profile) (i : Instr) (as : List HostAction) (s : State) :
    commandAt c i (withPending as s) = withPending as (commandAt c i s) := by
  cases i with
  | derive =>
    rcases Nat.lt_or_ge 16 s.plen.toNat with h | h
    · simp only [commandAt]
      rw [deriveAt_of_gt c s h, deriveAt_of_gt c _ (by exact h)]
      rfl
    · simp only [commandAt]
      rw [deriveAt_of_le c s h, deriveAt_of_le c _ (by exact h)]
      rfl
  | enc r =>
    by_cases h : r = 0
    · subst h; rfl
    · simp only [commandAt]
      rw [encAt_of_pos c r s h, encAt_of_pos c r _ h]
      rfl
  | dec r =>
    by_cases h : r = 0
    · subst h; rfl
    · simp only [commandAt]
      rw [decAt_of_pos c r s h, decAt_of_pos c r _ h]
      rfl
  | _ => rfl

/-- Every host action goes on, leaves the host's list alone, and does the same whatever the list holds. -/
theorem transact_withPending (a : HostAction) (s : State) :
    ∃ t, transact a s = .next t ∧ t.pending = s.pending ∧
      ∀ as, transact a (withPending as s) = .next (withPending as t) := by
  cases a with
  | read off n => exact ⟨_, rfl, rfl, fun _ => rfl⟩
  | reset => exact ⟨_, rfl, rfl, fun _ => rfl⟩
  | write off n v =>
    simp only [transact, busWrite]
    split
    case isFalse => exact ⟨_, rfl, rfl, fun _ => rfl⟩
    split
    · exact ⟨_, rfl, rfl, fun _ => rfl⟩
    · by_cases hf : s.status.fault = true
      · exact ⟨_, cmdWrite_faulted v s hf, rfl, fun as => cmdWrite_faulted v _ (by exact hf)⟩
      have hf : s.status.fault = false := by simpa using hf
      cases hd : decode v with
      | illegal why => exact ⟨_, cmdWrite_illegal v why s hf hd, rfl, fun as => cmdWrite_illegal v why _ (by exact hf) hd⟩
      | command i =>
        refine ⟨_, cmdWrite_command v i s hf hd, ?_, fun as => ?_⟩
        · have h := commandAt_withPending Config.profile i s.pending (withReply .okay s)
          have h2 := congrArg State.pending h
          exact h2
        · rw [cmdWrite_command v i _ (by exact hf) hd, ← commandAt_withPending]
          rfl
    · rename_i r _ _
      cases r with
      | status =>
        simp only [regWrite, statusWrite]
        by_cases h : (s.status.fault && clearsFault v) = true
        · refine ⟨withReply .okay (clearFault s), by simp [h], rfl, fun as => ?_⟩
          simp only [withPending_status, h]
          rfl
        · refine ⟨withReply .okay s, by simp [h], rfl, fun as => ?_⟩
          simp only [withPending_status, h]
          rfl
      | _ => exact ⟨_, rfl, rfl, fun _ => rfl⟩

/-- Running two sequences one after the other. -/
theorem runActions_append (as bs : List HostAction) (s : State) :
    runActions (as ++ bs) s =
      (runActions as s).bind fun p => (runActions bs p.1).map fun q => (q.1, p.2 ++ q.2) := by
  induction as generalizing s with
  | nil => cases h : runActions bs s <;> simp [runActions, h]
  | cons a as ih =>
    simp only [List.cons_append, runActions]
    cases afterAction a s with
    | none => rfl
    | some t =>
      simp only [ih]
      cases runActions as t with
      | none => rfl
      | some p => cases h : runActions bs p.1 <;> simp [h]

end Sys2Proof.Machine
end

