-- ==== Sys2Proof/Machine/ProfileP0.lean ====
section
/-! DEFINITION. Reference profile P0 (spec/00_scope.md R18, spec/40_key_deriver.md R104, spec/41_permutation.md R116): one
named instance of the OPEN parameters, the spec's own, made so that its test vectors have numbers. The machine does not run
at it, and no statement about the machine rests on it. -/

namespace Sys2Proof.Machine

/-- `FNV1A64(s)` (R18). -/
def fnv1a64 (s : Bytes) : DWord :=
  s.foldl (fun h b => (h ^^^ b.setWidth 64) * 0x00000100000001B3#64) 0xCBF29CE484222325#64

/-- The state part of `SM64_NEXT(x)` (R18). -/
def sm64State (x : DWord) : DWord := x + 0x9E3779B97F4A7C15#64

/-- The word part of `SM64_NEXT(x)` (R18), from the new state. -/
def sm64Word (x : DWord) : DWord :=
  let z1 := (x ^^^ (x >>> 30)) * 0xBF58476D1CE4E5B9#64
  let z2 := (z1 ^^^ (z1 >>> 27)) * 0x94D049BB133111EB#64
  z2 ^^^ (z2 >>> 31)

/-- `KdfWords_P0(p)` (R104). -/
def kdfWordsP0 (p : Bytes) : DWord × DWord :=
  let x0 := sm64State (fnv1a64 p)
  let x1 := sm64State x0
  (sm64Word x0, sm64Word x1)

/-- A draw in `[0, n]`: the remainder of the word by `n + 1` (R116). -/
def drawP0 (n : Nat) (x : DWord) : Fin (n + 1) := ⟨(sm64Word x).toNat % (n + 1), Nat.mod_lt _ (Nat.succ_pos n)⟩

/-- `PermDraws_P0(k)` (R116). -/
def permDrawsP0 (k : B16) : Draws :=
  let x7 := sm64State (fnv1a64 k.toList)
  let x6 := sm64State x7
  let x5 := sm64State x6
  let x4 := sm64State x5
  let x3 := sm64State x4
  let x2 := sm64State x3
  let x1 := sm64State x2
  { d7 := drawP0 7 x7, d6 := drawP0 6 x6, d5 := drawP0 5 x5, d4 := drawP0 4 x4, d3 := drawP0 3 x3, d2 := drawP0 2 x2,
    d1 := drawP0 1 x1 }

/-- Profile P0. -/
def profileP0 : Profile := { kdfWords := kdfWordsP0, permDraws := permDrawsP0 }

end Sys2Proof.Machine
end

