-- ==== Sys2Proof/Tests/Slice0.lean ====
section
/-! SUPPORT. The model's own tests, their expected values taken from spec/95_test_vectors.md (the vector's name stands at each),
and a witness of the hypotheses of every statement that has some. -/

open Sys2Proof Sys2Proof.Machine

namespace Sys2Proof.Tests

/-! ### Values of spec/95_test_vectors.md -/

/-- `K1`. -/
def k1 : B16 := #v[0xFD, 0x9C, 0x62, 0x3D, 0x72, 0x36, 0x36, 0xF5, 0xDC, 0xD3, 0x6A, 0xA6, 0x94, 0x6F, 0x51, 0xF2]

/-- `K2`. -/
def k2 : B16 := #v[0xEF, 0xE4, 0x13, 0xE9, 0x93, 0xB1, 0xB1, 0xAF, 0xE6, 0x9E, 0x53, 0x35, 0xA4, 0x7B, 0x8A, 0x97]

/-- `K3`. -/
def k3 : B16 := #v[0x7F, 0x27, 0x98, 0x4F, 0x9C, 0x8D, 0x8D, 0x7D, 0x37, 0xF4, 0x9A, 0xA9, 0x25, 0xDB, 0x54, 0xBC]

/-- `PT`. -/
def pt : B16 := #v[0x68, 0x65, 0x6C, 0x6C, 0x6F, 0x20, 0x77, 0x6F, 0x72, 0x6C, 0x64, 0x21, 0x21, 0x21, 0x21, 0x00]

/-- `C1`. -/
def c1 : B16 := #v[0x37, 0x41, 0x50, 0xB1, 0xE8, 0x94, 0x3A, 0x05, 0xAF, 0x28, 0x58, 0xCC, 0x5F, 0x59, 0xD4, 0x17]

/-- `C3`. -/
def c3 : B16 := #v[0x4C, 0x81, 0x1D, 0x2B, 0x65, 0xD5, 0x6C, 0x2E, 0x48, 0x87, 0x07, 0x12, 0x7B, 0xC3, 0x48, 0x2E]

/-- `Q`. -/
def q : Perm := #v[0, 5, 1, 3, 6, 4, 2, 7]

/-- The reset state with a key and a block. -/
def withKeyBlk (k b : B16) : State := { State.reset with key := k, blk := b }

/-- The reset state with these host actions waiting. -/
def waiting (as : List HostAction) : State := { State.reset with pending := as }

/-- The same with the fault `KEYLEN` latched. -/
def faulted (as : List HostAction) : State :=
  { State.reset with pending := as, status := { fault := true, cause := some .keylen }, finfo := 17, plen := 17 }

/-- The state a step or a command ends in. -/
def after (o : Host.Outcome State Fault Refusal) : Option State :=
  match o with
  | .next t => some t
  | .fault _ => none
  | .refused _ => none

/-! ### Well-formed commands: the one check, and a term it refuses -/

theorem test_enc_zero_ill_formed : ¬ (Instr.enc 0).WellFormed := by decide

theorem test_dec_zero_ill_formed : ¬ (Instr.dec 0).WellFormed := by decide

theorem test_enc_max_well_formed : (Instr.enc 65535).WellFormed := by decide

/-! ### Decoding: every constructor's word, written out from the fields of R80, R81, R83 (D-vectors) -/

theorem test_decode_nop : decode 0b00000000_0000000000000000_00000000 = .command .nop := by decide

theorem test_decode_derive : decode 0b00000000_0000000000000000_00000001 = .command .derive := by decide

theorem test_decode_pgen : decode 0b00000000_0000000000000000_00000010 = .command .pgen := by decide

theorem test_decode_renc : decode 0b00000000_0000000000000000_00000011 = .command .renc := by decide

theorem test_decode_rdec : decode 0b00000000_0000000000000000_00000100 = .command .rdec := by decide

theorem test_decode_knext : decode 0b00000000_0000000000000000_00000101 = .command .knext := by decide

theorem test_decode_kprev : decode 0b00000000_0000000000000000_00000110 = .command .kprev := by decide

theorem test_decode_enc : decode 0b00000000_1000000000000001_00000111 = .command (.enc 0x8001) := by decide

theorem test_decode_dec : decode 0b00000000_0000000000000011_00001000 = .command (.dec 3) := by decide

/-- D-vectors that are illegal. -/
theorem test_decode_illegal :
    decode 0x00000009 = .illegal .opcodeUnassigned ∧ decode 0x000000FF = .illegal .opcodeUnassigned ∧
    decode 0x00000101 = .illegal .operandNotAllowed ∧ decode 0x00000100 = .illegal .operandNotAllowed ∧
    decode 0x01000007 = .illegal .reservedBitsSet ∧ decode 0x80000000 = .illegal .reservedBitsSet := by decide

/-- The example of R91: `ENC 3` is 0x00000307. -/
theorem test_encode_enc : encode (.enc 3) = 0x00000307 ∧ assemble "ENC" (some 3) = some 0x00000307 := by decide

theorem test_table_word : decodeTableWord 32 0x00000007 = some (.enc 0) ∧ decodeTableWord 32 0x00000109 = none := by decide

/-! ### Functions -/

/-- T1. -/
theorem test_rotations :
    rotl3 0x80 = 0x04 ∧ rotr3 0x80 = 0x10 ∧ rotl3 0x95 = 0xAC ∧ rotr3 0x0F = 0xE1 ∧ rotl3 0xE0 = 0x07 := by decide

/-- B3 and B4. -/
theorem test_bit_reordering :
    bitperm q 0xAC = 0xCA ∧ bitunperm q 0xAC = 0x9A ∧ bitperm #v[1, 2, 3, 4, 5, 6, 7, 0] 0x01 = 0x80 ∧
    bitunperm #v[1, 2, 3, 4, 5, 6, 7, 0] 0x01 = 0x02 := by decide

/-- V1, the last two rows and their inverses. -/
theorem test_shuffle :
    shuffle { d7 := 0, d6 := 6, d5 := 5, d4 := 0, d3 := 0, d2 := 2, d1 := 0 } = #v[1, 3, 2, 4, 7, 5, 6, 0] ∧
    shuffle { d7 := 3, d6 := 3, d5 := 3, d4 := 0, d3 := 1, d2 := 1, d1 := 1 } = #v[4, 2, 5, 1, 0, 6, 7, 3] ∧
    invert #v[1, 3, 2, 4, 7, 5, 6, 0] = #v[7, 0, 2, 1, 3, 5, 6, 4] ∧
    invert #v[4, 2, 5, 1, 0, 6, 7, 3] = #v[4, 3, 1, 7, 0, 2, 5, 6] := by decide

/-- K0: byte order of the two words, and the passphrase xored in. -/
theorem test_key_from_words :
    keyFromWords (0x0706050403020100, 0x0F0E0D0C0B0A0908) [0xFF, 0xFF, 0xFF] =
      #v[0xFF, 0xFE, 0xFD, 3, 4, 5, 6, 7, 8, 9, 10, 11, 12, 13, 14, 15] := by decide

/-- R8 of the R-vectors. -/
theorem test_round :
    roundE q #v[0, 1, 2, 3, 4, 5, 6, 7, 8, 9, 10, 11, 12, 13, 14, 15]
      #v[0x00, 0x11, 0x22, 0x33, 0x44, 0x55, 0x66, 0x77, 0x88, 0x99, 0xAA, 0xBB, 0xCC, 0xDD, 0xEE, 0xFF] =
      #v[0x00, 0x81, 0x03, 0x82, 0x00, 0x81, 0x03, 0x82, 0x48, 0xC9, 0x4B, 0xCA, 0x48, 0xC9, 0x4B, 0xCA] := by decide

/-- S3: the key of round 8. -/
theorem test_round_key :
    roundKeyFor k1 8 = some #v[0xBF, 0x93, 0x4C, 0xA7, 0x4E, 0xC6, 0xC6, 0xBE, 0x9B, 0x7A, 0x4D, 0xD4, 0x92, 0xED, 0x2A, 0x5E]
      ∧ roundKeyFor k1 9 = some k1 := by decide

/-- T3, T4 and the draws of P1 (profile P0). -/
theorem test_profile_p0 :
    fnv1a64 [0x6B, 0x65, 0x79] = 0x3DC94A19365B10EC ∧
    kdfWordsP0 [0x6B, 0x65, 0x79] = (0xF53636723D1BF996, 0xF2516F94A66AD3DC) ∧
    permDrawsP0 k1 = { d7 := 7, d6 := 2, d5 := 4, d4 := 2, d3 := 3, d2 := 1, d1 := 1 } := by decide +kernel

/-! ### Commands -/

theorem test_nop : (after (exec .nop (withKeyBlk k1 pt))) = some (withKeyBlk k1 pt) := by decide

/-- Vector K1 (profile P0), with junk beyond the passphrase. -/
theorem test_derive :
    (deriveAt profileP0 { State.reset with
      pass := #v[0x6B, 0x65, 0x79, 0xAA, 0xBB, 0, 0, 0, 0, 0, 0, 0, 0, 0, 0, 0xCC], plen := 3 }).key = k1 := by decide +kernel

/-- `PLEN` = 17 and 0xFFFFFFFF. -/
theorem test_derive_keylen :
    (after (exec .derive { State.reset with plen := 17 })).map (fun t => (statusWord t.status, t.finfo, t.key)) =
      some (0x00000011, 17, B16.zeros) ∧
    (after (exec .derive { State.reset with plen := 0xFFFFFFFF })).map (fun t => t.finfo) = some 0xFFFFFFFF := by decide

/-- Vector P1 (profile P0). -/
theorem test_pgen :
    let t := pgenAt profileP0 (withKeyBlk k1 pt)
    wordOfPerm t.perm = 0x72463150 ∧ wordOfPerm t.iperm = 0x74153620 ∧ t.blk = pt := by decide +kernel

/-- Vector E1 (profile P0). -/
theorem test_renc : (rencAt profileP0 (withKeyBlk k1 pt)).blk = c1 ∧ (rencAt profileP0 (withKeyBlk k1 pt)).sk = k1 := by
  decide +kernel

/-- Vector E1 backward (profile P0). -/
theorem test_rdec :
    (rdecAt profileP0 (withKeyBlk k1 c1)).blk = pt ∧ wordOfPerm (rdecAt profileP0 (withKeyBlk k1 c1)).perm = 0x72463150 := by
  decide +kernel

/-- Vector S1. -/
theorem test_knext : (after (exec .knext (withKeyBlk k1 pt))).map (fun t => t.key) = some k2 := by decide

/-- Vector S2, one step before `K1`. -/
theorem test_kprev :
    (after (exec .kprev (withKeyBlk k1 pt))).map (fun t => t.key) =
      some #v[0xBF, 0x93, 0x4C, 0xA7, 0x4E, 0xC6, 0xC6, 0xBE, 0x9B, 0x7A, 0x4D, 0xD4, 0x92, 0xED, 0x2A, 0x5E] := by decide

/-- Vector M1 (profile P0). -/
theorem test_enc :
    let t := encAt profileP0 3 (withKeyBlk k1 pt)
    t.blk = c3 ∧ t.sk = k3 ∧ t.key = k1 ∧ wordOfPerm t.perm = 0x67201543 ∧ wordOfPerm t.iperm = 0x67210534 := by
  decide +kernel

/-- Vector M2 (profile P0). -/
theorem test_dec :
    let t := decAt profileP0 3 (withKeyBlk k3 c3)
    t.blk = pt ∧ t.sk = k1 ∧ t.key = k3 ∧ wordOfPerm t.perm = 0x72463150 := by decide +kernel

/-- Vector M7. -/
theorem test_rounds_zero :
    (after (exec (.enc 0) (withKeyBlk k1 pt))).map (fun t => (statusWord t.status, t.finfo, t.blk)) =
      some (0x00000031, 0x00000007, pt) ∧
    (after (exec (.dec 0) (withKeyBlk k1 pt))).map (fun t => (statusWord t.status, t.finfo, t.blk)) =
      some (0x00000031, 0x00000008, pt) := by decide

/-! ### The host port -/

/-- A4: the block's first word, little-endian. -/
theorem test_write_blk0 :
    (after (step (waiting [.write 0x50 4 0x6C6C6568]))).map (fun t => t.blk.toList.take 5) =
      some [0x68, 0x65, 0x6C, 0x6C, 0x00] := by decide

/-- A5: the reserved bits of `CTRL` are ignored. -/
theorem test_write_ctrl :
    (after (step (waiting [.write 0x08 4 0xFFFFFFFF]))).map (fun t => ctrlWord t.ctrl) = some 0x00000001 := by decide

/-- A8 to A12: bus errors. -/
theorem test_bus_errors :
    [HostAction.read 0x00 4, .write 0x40 4 0x12345678, .write 0x0C 4 0, .read 0x14 4, .read 0x60 4, .read 0xFC 4, .read 0x22 4,
      .write 0x20 1 0xFF].map (fun a => (after (step (waiting [a]))).map fun t => t.reply) =
      List.replicate 8 (some (some .err)) := by decide

/-- A13 to A15: a latched fault refuses commands, and is cleared by bit 0 alone. -/
theorem test_faulted :
    (after (step (faulted [.write 0x00 4 0]))).map (fun t => (t.reply, t.finfo)) = some (some .err, 17) ∧
    (after (step (faulted [.write 0x04 4 0xFFFFFFFE]))).map (fun t => (statusWord t.status, t.finfo)) = some (0x11, 17) ∧
    (after (step (faulted [.write 0x04 4 0xFFFFFFFF]))).map (fun t => (statusWord t.status, t.finfo)) = some (0, 0) := by
  decide

/-- F-vectors and R177. -/
theorem test_illcmd_irq :
    (after (step { State.reset with ctrl := { ie := true }, pending := [.write 0x00 4 0x01000007] })).map
      (fun t => (statusWord t.status, t.finfo, irq t, t.reply)) = some (0x21, 0x01000007, true, some .okay) := by decide

/-- A2 after a reset in a state full of other values. -/
theorem test_reset_reads :
    (after (step { faulted [.reset] with key := k1, perm := q })).map (fun t => (wordOfPerm t.perm, wordOf t.key 0, irq t)) =
      some (0x76543210, 0, false) := by decide

/-- The pseudo-line `ldpass "key"` of PR1. -/
theorem test_ldpass :
    passActions ['k', 'e', 'y'] =
      some [.write 0x20 4 0x0079656B, .write 0x24 4 0, .write 0x28 4 0, .write 0x2C 4 0, .write 0x10 4 3] := by decide

/-- L2 and L6 of the lengths. -/
theorem test_padding : (pad16 [1]).length = 16 ∧ (pad16 (List.replicate 32 1)).length = 32 ∧ pad16 [] = [] := by decide

/-! ### Witnesses: the hypotheses of each statement are met, clause by clause where the clauses have hypotheses of their own -/

theorem witness_DecodeFollowsOpcodeMap : ∃ row ∈ opcodeRows, (0x00FFFF08 : Word) &&& row.mask = row.bits := by decide

/-- The five clauses: refused; illegal by opcode 9, by `OP` = 6 with `R` = 1, and by `Z` = 1; `R` = 0 in both formats; `PLEN` =
17; no fault with `PLEN` = 16 and with `R` = 1. -/
theorem witness_CommandCheckOrder :
    (faulted [.write 0x00 4 0]).status.fault = true ∧
    (∀ w ∈ [(0x00000009 : Word), 0x00000106, 0x01000000],
      (waiting [.write 0x00 4 w]).status.fault = false ∧
        (w.toNat / 2 ^ 24 ≠ 0 ∨ w.toNat % 256 > 8 ∨ (w.toNat % 256 ≤ 6 ∧ w.toNat / 256 % 65536 ≠ 0))) ∧
    (∀ w ∈ [(0x00000007 : Word), 0x00000008], (waiting [.write 0x00 4 w]).status.fault = false) ∧
    ({ waiting [.write 0x00 4 0x00000001] with plen := 17 } : State).plen.toNat > 16 ∧
    ({ waiting [.write 0x00 4 0x00000001] with plen := 16 } : State).plen.toNat ≤ 16 ∧
    ∀ w ∈ [(0x00000001 : Word), 0x00000107, 0x00000006],
      ¬ (w.toNat / 2 ^ 24 ≠ 0 ∨ w.toNat % 256 > 8 ∨ (w.toNat % 256 ≤ 6 ∧ w.toNat / 256 % 65536 ≠ 0)) ∧
        w ≠ 0x00000007 ∧ w ≠ 0x00000008 := by
  simp [faulted, waiting, State.reset]

theorem witness_StepRunsDecodedCommand :
    (waiting [.write 0x00 4 0x00FFFF07]).pending = .write 0x00 4 0x00FFFF07 :: [] ∧
    (waiting [.write 0x00 4 0x00FFFF07]).status.fault = false ∧ decode 0x00FFFF07 = .command (.enc 65535) := by decide

/-- From an unfaulted and from a faulted state. -/
theorem witness_PlacedWordRunsNext :
    decode 0x00000006 = .command .kprev ∧ (waiting []).status.fault = false ∧ (faulted []).status.fault = true := by decide

theorem witness_IdleMachineWaits : (waiting []).pending = [] := rfl

theorem witness_ResetGivesEveryRegisterItsValue : (faulted [.reset, .reset]).pending = .reset :: [.reset] := rfl

/-- At the lowest and highest readable offsets and at the two permutation registers. -/
theorem witness_ReadsAfterReset :
    ∀ off ∈ [(0x04 : BitVec 8), 0x5C, 0x18, 0x1C],
      off.toNat % 4 = 0 ∧ off.toNat < 0x60 ∧ off ≠ 0x00 ∧ off ≠ 0x14 ∧
        (faulted [.reset, .read off 4]).pending = .reset :: .read off 4 :: [] := by decide

/-- Accepted and refused. -/
theorem witness_NopChangesNothing :
    (waiting [.write 0x00 4 0]).pending = .write 0x00 4 0x00000000 :: [] ∧ (faulted [.write 0x00 4 0]).status.fault = true := by
  decide

/-- Passphrases of 16 and 17 bytes; `PLEN` = 0, 16 and 17. -/
theorem witness_DeriveCutsKeyAndXorsPassphrase :
    pt.toList.length ≤ 16 ∧ (pt.toList ++ [0]).length > 16 ∧
    ({ State.reset with plen := 0 } : State).plen.toNat ≤ 16 ∧ ({ State.reset with plen := 16 } : State).plen.toNat ≤ 16 ∧
    ({ State.reset with plen := 17 } : State).plen.toNat > 16 := by decide

/-- Two states with the same 15 passphrase bytes, another byte 15, and another key. -/
theorem witness_DeriveSeesOnlyThePassphrase :
    let s : State := { State.reset with plen := 15, pass := pt }
    let s' : State := { State.reset with plen := 15, pass := pt.set 15 0xFF, key := k1 }
    s.plen = s'.plen ∧ s.plen.toNat ≤ 16 ∧ (∀ i : Fin 16, i.val < s.plen.toNat → s.pass[i] = s'.pass[i]) ∧ s.pass ≠ s'.pass := by
  decide

/-- Two passphrases of one byte, under an instance that draws the same words for all. -/
theorem witness_KeyByteFollowsPassphraseByte :
    let c : Profile := { kdfWords := fun _ => (0, 0), permDraws := fun _ => default }
    ([1] : Bytes).length ≤ 16 ∧ ([1] : Bytes).length = ([2] : Bytes).length ∧ c.kdfWords [1] = c.kdfWords [2] ∧
    (∀ i, i ≠ (0 : Fin 16).val → ([1] : Bytes)[i]? = ([2] : Bytes)[i]?) ∧
    ([1] : Bytes)[(0 : Fin 16).val]? ≠ ([2] : Bytes)[(0 : Fin 16).val]? := by
  refine ⟨by decide, rfl, rfl, fun i hi => ?_, by decide⟩
  cases i with
  | zero => exact absurd rfl hi
  | succ n => rfl

/-- A lane where block and key agree, and one where they are complementary. -/
theorem witness_RencRoundsTheBlock_lanes :
    (withKeyBlk k1 k1).blk[(3 : Fin 16)] = (withKeyBlk k1 k1).key[(3 : Fin 16)] ∧
    (withKeyBlk B16.zeros (Vector.replicate 16 0xFF)).blk[(15 : Fin 16)] =
      (withKeyBlk B16.zeros (Vector.replicate 16 0xFF)).key[(15 : Fin 16)] ^^^ 0xFF := by decide

/-- A key of bytes 0x00 and 0xFF. -/
theorem witness_KnextRotatesKeyBytesLeft_and_KprevRotatesKeyBytesRight :
    ∀ i : Fin 16, (withKeyBlk (B16.zeros.set 15 0xFF) pt).key[i] = 0x00 ∨ (withKeyBlk (B16.zeros.set 15 0xFF) pt).key[i] = 0xFF := by
  decide

/-- The least and the greatest legal round count, and 0; the key of round 3 in `KEY`. -/
theorem witness_EncRunsItsRounds_and_DecRunsItsRounds :
    (1 : BitVec 16) ≠ 0 ∧ (65535 : BitVec 16) ≠ 0 ∧ (0 : BitVec 16) = 0 ∧
    roundKeyFor k1 (3 : BitVec 16).toNat = some (withKeyBlk k3 c3).key := by decide

/-- A key that changes, a subkey and block that change, and a fault entry. -/
theorem witness_CommandsWriteOnlyTheirRegisters :
    (∃ t, exec .knext (withKeyBlk k1 pt) = .next t ∧ t.key ≠ (withKeyBlk k1 pt).key) ∧
    (∃ t, exec .renc (withKeyBlk k1 pt) = .next t ∧ t.sk ≠ (withKeyBlk k1 pt).sk) ∧
    (∃ s t, exec .pgen s = .next t ∧ t.perm ≠ s.perm) ∧
    ∃ t, exec (.enc 0) (withKeyBlk k1 pt) = .next t ∧ t.status ≠ (withKeyBlk k1 pt).status := by
  refine ⟨⟨_, rfl, by decide⟩, ⟨_, rfl, ?_⟩, ?_, ⟨_, rfl, by decide⟩⟩
  · show k1 ≠ B16.zeros
    decide
  · by_cases h : generate Config.profile State.reset.key = Perm.identity
    · refine ⟨{ State.reset with perm := q }, _, rfl, ?_⟩
      show generate Config.profile State.reset.key ≠ q
      rw [h]
      decide
    · exact ⟨State.reset, _, rfl, h⟩

/-- Two states with the same key and block and nothing else in common; a format R command with `R` = 1. -/
theorem witness_ResultsDependOnKeyAndBlockOnly :
    (withKeyBlk k1 pt).key = ({ faulted [.reset] with key := k1, blk := pt, perm := q } : State).key ∧
    (withKeyBlk k1 pt).blk = ({ faulted [.reset] with key := k1, blk := pt, perm := q } : State).blk ∧
    ∃ r : BitVec 16, r ≠ 0 ∧ (Instr.enc 1 = .enc r ∨ Instr.enc 1 = .dec r) :=
  ⟨rfl, rfl, 1, by decide, .inl rfl⟩

/-- A permutation that is not its own inverse (for ShuffleGivesEveryPermutationOnce, InvertGivesTheInverse, BitpermSelectsBits,
BitunpermUndoesBitperm, RoundAndInverseCancel). -/
theorem witness_valid_permutation : Perm.Valid q ∧ invert q ≠ q := by decide

/-- Two keys and two blocks that agree in lane 15 alone, and a permutation. -/
theorem witness_LanesDoNotMix :
    (k1.set 0 0)[(15 : Fin 16)] = k1[(15 : Fin 16)] ∧ (pt.set 0 0)[(15 : Fin 16)] = pt[(15 : Fin 16)] ∧ Perm.Valid q := by decide

/-- `r` = 1; a key of bytes 0x00 and 0xFF; a key byte 0x55 and a key byte 0xAA. -/
theorem witness_SchedulePeriodIsEight :
    1 ≤ 1 ∧ (∀ i : Fin 16, (B16.zeros.set 3 0xFF)[i] = 0x00 ∨ (B16.zeros.set 3 0xFF)[i] = 0xFF) ∧
    (B16.zeros.set 0 0x55)[(0 : Fin 16)] = 0x55 ∧ (B16.zeros.set 15 0xAA)[(15 : Fin 16)] = 0xAA := by decide

/-- The least round count (for KnextReachesTheRoundKey, BlockRoundsFollowTheSchedule, MessageIsBlockwise,
OutputLengthIsRoundedUp). -/
theorem witness_round_count : ∃ r : Nat, 1 ≤ r := ⟨1, Nat.le_refl 1⟩

theorem witness_DecAfterEncRestoresTheBlock : (65535 : BitVec 16) ≠ 0 := by decide

/-- The longest passphrase and the least round count. -/
theorem witness_MessageRoundTrip : k1.toList.length ≤ 16 ∧ 1 ≤ 1 := by decide

/-- A last padding byte, a length that is a multiple of 16, and the last block of a message. -/
theorem witness_PaddingAndPartition :
    (0 : Byte) ∈ (pad16 [1]).drop 1 ∧ k1.toList.length % 16 = 0 ∧ 1 < nblocks (List.replicate 17 1) := by decide

/-- An action that gets `ERR` and one that does not, read and write. -/
theorem witness_BusErrorsExactly :
    (waiting [.read 0x14 4]).pending = .read 0x14 4 :: [] ∧ (waiting [.read 0x5C 4]).pending = .read 0x5C 4 :: [] ∧
    (waiting [.write 0x60 4 0]).pending = .write 0x60 4 0 :: [] ∧ (faulted [.write 0x00 4 0]).pending = .write 0x00 4 0 :: [] ∧
    (after (step (waiting [.read 0x14 4]))).map (fun t => t.reply) = some (some .err) ∧
    (after (step (waiting [.read 0x5C 4]))).map (fun t => t.reply) = some (some (.data 0)) ∧
    (after (step (waiting [.write 0x60 4 0]))).map (fun t => t.reply) = some (some .err) := by decide

/-- The last word of the last register, read and written, and the last byte in it. -/
theorem witness_WordPackingIsLittleEndian :
    (waiting [.read 0x5C 4]).pending = .read (BitVec.ofNat 8 (0x50 + 4 * (3 : Fin 4).val)) 4 :: [] ∧
    (waiting [.write 0x5C 4 1]).pending = .write (BitVec.ofNat 8 (0x50 + 4 * (3 : Fin 4).val)) 4 1 :: [] ∧
    (15 : Fin 16).val / 4 = (3 : Fin 4).val := by decide

theorem witness_PermWordHoldsEntryPerNibble :
    (waiting [.read 0x18 4]).pending = .read 0x18 4 :: [] ∧ (waiting [.read 0x1C 4]).pending = .read 0x1C 4 :: [] := by decide

theorem witness_StatusWordLayout : (faulted [.read 0x04 4]).pending = .read 0x04 4 :: [] := rfl

theorem witness_PlenAndCtrlStoreAndReadBack :
    (faulted [.write 0x10 4 0xFFFFFFFF]).pending = .write 0x10 4 0xFFFFFFFF :: [] ∧
    (faulted [.write 0x08 4 0xFFFFFFFF]).pending = .write 0x08 4 0xFFFFFFFF :: [] ∧
    (faulted [.read 0x10 4]).pending = .read 0x10 4 :: [] ∧ (faulted [.read 0x08 4]).pending = .read 0x08 4 :: [] ∧
    (faulted [.read 0x0C 4]).pending = .read 0x0C 4 :: [] := by decide

/-- A low `rst_n`; a selected transaction of each illegal size; a read and a write of the legal size, the read of a readable
register at the highest mapped offset; an idle port. -/
theorem witness_PortSizeOtherThanTwoIsRefused :
    (waiting []).pending = [] ∧
    ({ rstN := false, sel := true, write := true, size := 2, addr := 0, wdata := 0 } : PortIn).rstN = false ∧
    (∀ z ∈ [(0 : BitVec 2), 1, 3],
      let p : PortIn := { rstN := true, sel := true, write := true, size := z, addr := 0x10, wdata := 5 }
      p.rstN = true ∧ p.sel = true ∧ p.size ≠ 2) ∧
    (∀ wr ∈ [false, true],
      let p : PortIn := { rstN := true, sel := true, write := wr, size := 2, addr := 0x5C, wdata := 5 }
      p.rstN = true ∧ p.sel = true ∧ p.size = 2 ∧ p.write = wr ∧ regAt p.addr = some (.blk 3) ∧
        regRead (.blk 3) (waiting []) = some 0) ∧
    ({ rstN := true, sel := false, write := true, size := 2, addr := 0, wdata := 0 } : PortIn).sel = false := by decide

/-- Each of the three faults. -/
theorem witness_FaultEntryIsPrecise :
    (∃ t, step (waiting [.write 0x00 4 0x00000009]) = .next t ∧ t.status.fault = true) ∧
    (∃ t, step (waiting [.write 0x00 4 0x00000007]) = .next t ∧ t.status.fault = true) ∧
    ∃ t, step { waiting [.write 0x00 4 0x00000001] with plen := 17 } = .next t ∧ t.status.fault = true :=
  ⟨⟨_, rfl, rfl⟩, ⟨_, rfl, rfl⟩, ⟨_, rfl, rfl⟩⟩

/-- Set by a command, cleared by a write, cleared by reset, kept by a refused command. -/
theorem witness_FaultLatchChangesOnlyAsStated :
    (∃ t, step (waiting [.write 0x00 4 0x00000009]) = .next t ∧ t.status.fault = true) ∧
    (∃ t, step (faulted [.write 0x04 4 1]) = .next t ∧ t.status.fault = false) ∧
    (∃ t, step (faulted [.reset]) = .next t ∧ t.status.fault = false) ∧
    ∃ t, step (faulted [.write 0x00 4 9]) = .next t ∧ t.status.fault = true :=
  ⟨⟨_, rfl, rfl⟩, ⟨_, rfl, rfl⟩, ⟨_, rfl, rfl⟩, ⟨_, rfl, rfl⟩⟩

/-- A refused command, and an access to a data register. -/
theorem witness_FaultedStateRefusesCommandsOnly :
    (faulted [.write 0x00 4 0]).status.fault = true ∧ (faulted [.write 0x00 4 0]).pending = .write 0x00 4 0 :: [] ∧
    (∀ w, HostAction.write 0x30 4 5 ≠ .write 0x00 4 w) ∧
    ∀ n, HostAction.write 0x30 4 5 ≠ .read 0x04 n ∧ HostAction.write 0x30 4 5 ≠ .read 0x0C n := by
  refine ⟨rfl, rfl, fun w h => ?_, fun n => ⟨by simp, by simp⟩⟩
  injection h with h
  exact absurd h (by decide)

/-- A reset; bit 0 set with a fault latched; bit 0 clear; no fault latched. -/
theorem witness_StatusWriteClearsTheFault :
    (faulted [.reset]).pending = .reset :: [] ∧
    (faulted [.write 0x04 4 1]).pending = .write 0x04 4 1 :: [] ∧ (faulted [.write 0x04 4 1]).status.fault = true ∧
    (1 : Word).getLsbD 0 = true ∧ (0xFFFFFFFE : Word).getLsbD 0 = false ∧
    (waiting [.write 0x04 4 1]).status.fault = false := by decide

theorem witness_IrqFollowsFaultAndEnable :
    (faulted [.write 0x08 4 1]).pending = .write 0x08 4 1 :: [] ∧ (faulted [.write 0x04 4 1]).pending = .write 0x04 4 1 :: [] ∧
    (faulted [.reset]).pending = .reset :: [] ∧
    (waiting [.write 0x00 4 0xFFFFFFFF]).pending = .write 0x00 4 0xFFFFFFFF :: [] := by decide

/-- A state that meets the permutation invariant and takes a step. -/
theorem witness_StepKeepsPermInvariant :
    PermsConsistent (waiting [.write 0x00 4 2]) ∧ ∃ t, step (waiting [.write 0x00 4 2]) = .next t :=
  ⟨⟨by decide, by decide⟩, _, rfl⟩

/-- States that meet the latch invariant, with and without a fault, and take a step. -/
theorem witness_StepKeepsLatchInvariant :
    LatchConsistent (waiting [.write 0x00 4 9]) ∧ LatchConsistent (faulted [.write 0x04 4 1]) ∧
    (∃ t, step (waiting [.write 0x00 4 9]) = .next t) ∧ ∃ t, step (faulted [.write 0x04 4 1]) = .next t :=
  ⟨⟨rfl, rfl⟩, ⟨rfl, by decide⟩, ⟨_, rfl⟩, _, rfl⟩

/-- A reachable state other than reset: the host has added an action and it has been performed. -/
theorem witness_ReachableStatesAreConsistent : ∃ t, Reachable t ∧ t.status.fault = true :=
  ⟨_, .step _ _ (.hostAdds _ (.write 0x00 4 9) .reset) rfl, rfl⟩

/-- A text of 16 characters. -/
theorem witness_PseudoLinesLoadRegisters :
    ∃ p, asciiBytes (List.replicate 16 'a') = some p ∧ p.length ≤ 16 := ⟨List.replicate 16 0x61, by decide, by decide⟩

theorem witness_HostProcedureComputesMessages : (waiting []).status.fault = false ∧ (1 : BitVec 16) ≠ 0 := by decide

end Sys2Proof.Tests
end

/-! ## A script's run and the machine's run -/

namespace Sys2Proof.Machine

/-- A step that goes on is the first step of a run (Host/Core.lean). -/
theorem core_run_succ_of_next (n : Nat) {s t : State} (h : step s = .next t) :
    Sys2Proof.core.run (n + 1) s = Sys2Proof.core.run n t := by
  have hcore : Sys2Proof.core.step s = .next t := h
  simp only [Host.Core.run, hcore]

/-- An action that goes on, before the rest of its sequence. -/
theorem runActions_cons_of_next {a : HostAction} {as : List HostAction} {s t u : State} {rs : List (Option Reply)}
    (h : transact a s = .next t) (hr : runActions as t = some (u, rs)) :
    runActions (a :: as) s = some (u, t.reply :: rs) := by
  simp only [runActions, afterAction, h, hr]

/-- Putting back the list that a state holds. -/
theorem withPending_of_pending_eq {as : List HostAction} {s : State} (h : s.pending = as) : withPending as s = s := by
  subst h
  rfl

/-- A sequence of actions goes through from every state, with one answer each, and the machine takes the same actions in as
many steps, whatever list `rest` waits behind them (R2: a step is one action, taken whole). -/
theorem runActions_eq_run (as : List HostAction) (s : State) :
    ∃ t rs, runActions as s = some (t, rs) ∧ rs.length = as.length ∧ t.pending = s.pending ∧
      ∀ rest, Sys2Proof.core.run as.length (withPending (as ++ rest) s) = .next (withPending rest t) := by
  induction as generalizing s with
  | nil => exact ⟨s, [], rfl, rfl, rfl, fun _ => rfl⟩
  | cons a as ih =>
    obtain ⟨t, hact, hpend, hany⟩ := transact_withPending a s
    obtain ⟨u, rs, hrun, hlen, hupend, hmachine⟩ := ih t
    refine ⟨u, t.reply :: rs, runActions_cons_of_next hact hrun, congrArg Nat.succ hlen, hupend.trans hpend, fun rest => ?_⟩
    have hstep : step (withPending (a :: (as ++ rest)) s) = .next (withPending (as ++ rest) t) :=
      (step_action _ a (as ++ rest) rfl).trans (hany (as ++ rest))
    exact (core_run_succ_of_next as.length hstep).trans (hmachine rest)

/-- Settles O55: the run of the sequence and of the machine, with the state's own list waiting behind. -/
theorem scriptRunIsMachineRun : Obligations.ScriptRunIsMachineRun := by
  intro as s
  obtain ⟨t, rs, hrun, hlen, hpend, hmachine⟩ := runActions_eq_run as s
  refine ⟨t, rs, hrun, hlen, hpend, ?_⟩
  have h := hmachine s.pending
  rwa [withPending_of_pending_eq hpend] at h

end Sys2Proof.Machine

/-! ## The invariants of the state -/

namespace Sys2Proof.Machine

/-! ### The step, seen from the state it leaves -/

/-- A step that goes on has done nothing, or has performed the host's next action. -/
theorem step_next_cases {s t : State} (h : step s = .next t) :
    t = s ∨ ∃ a rest, s.pending = a :: rest ∧ transact a (withPending rest s) = .next t := by
  rcases step_cases s with ⟨-, hs⟩ | ⟨a, rest, hp, hs⟩
  · exact .inl (Host.Outcome.next.inj (h.symm.trans hs))
  · exact .inr ⟨a, rest, hp, hs.symm.trans h⟩

/-! ### `PERM` and `IPERM` (spec/10_state.md R28) -/

/-- Every shuffle is a permutation: it starts from the identity and only swaps (spec/41_permutation.md R111). -/
theorem shuffle_valid (d : Draws) : Perm.Valid (shuffle d) := by
  unfold shuffle
  repeat' apply swapEntries_valid
  exact identity_valid

/-- A vector the generator makes, recorded with its inverse. -/
theorem permsConsistent_of_generated {t : State} {c : Profile} {k : B16} (hp : t.perm = generate c k)
    (hi : t.iperm = invert (generate c k)) : PermsConsistent t := by
  have hv : Perm.Valid (generate c k) := shuffle_valid (c.permDraws k)
  unfold PermsConsistent
  rw [hp, hi]
  exact ⟨hv, getElem_invert hv⟩

/-- The identity is its own inverse (R36). -/
theorem permsConsistent_of_identity {t : State} (hp : t.perm = Perm.identity) (hi : t.iperm = Perm.identity) :
    PermsConsistent t := by
  unfold PermsConsistent
  rw [hp, hi]
  decide

/-- The invariant is about the two vectors alone. -/
theorem PermsConsistent.of_eq {s t : State} (h : PermsConsistent s) (hp : t.perm = s.perm) (hi : t.iperm = s.iperm) :
    PermsConsistent t := by
  unfold PermsConsistent
  rw [hp, hi]
  exact h

/-- No register write reaches the vectors (R26, R27: read only to the host). -/
theorem regWrite_vectors {r : RegName} {v : Word} {s t : State} (h : regWrite r v s = some t) :
    t.perm = s.perm ∧ t.iperm = s.iperm := by
  cases r with
  | status =>
    cases h
    unfold statusWrite
    split <;> exact ⟨rfl, rfl⟩
  | _ => cases h <;> exact ⟨rfl, rfl⟩

/-- A command leaves the vectors alone or records one the generator makes, with its inverse. -/
theorem commandAt_vectors (c : Profile) (i : Instr) (s : State) :
    ((commandAt c i s).perm = s.perm ∧ (commandAt c i s).iperm = s.iperm) ∨ PermsConsistent (commandAt c i s) := by
  rcases commandAt_cases c i s with h | ⟨-, -, h⟩ | ⟨-, h⟩ | ⟨-, k, h⟩ | ⟨-, h⟩ | ⟨-, x, k, h⟩ <;> rw [h]
  · exact .inl ⟨rfl, rfl⟩
  · exact .inl ⟨rfl, rfl⟩
  · exact .inl ⟨rfl, rfl⟩
  · exact .inl ⟨rfl, rfl⟩
  · exact .inr (permsConsistent_of_generated rfl rfl)
  · exact .inr (permsConsistent_of_generated rfl rfl)

/-- A host action leaves the vectors alone or writes a permutation and its inverse. -/
theorem transact_vectors {a : HostAction} {s t : State} (h : transact a s = .next t) :
    (t.perm = s.perm ∧ t.iperm = s.iperm) ∨ PermsConsistent t := by
  rcases transact_cases a s with
    ⟨r, hu⟩ | ⟨r, v, u, -, hw, hu⟩ | ⟨w, why, -, -, -, hu⟩ | ⟨w, i, -, -, -, hu⟩ | ⟨-, hu⟩ <;>
    obtain rfl := Host.Outcome.next.inj (h.symm.trans hu)
  · exact .inl ⟨rfl, rfl⟩
  · have hk := regWrite_vectors hw
    exact .inl hk
  · exact .inl ⟨rfl, rfl⟩
  · exact commandAt_vectors _ i (withReply .okay s)
  · exact .inr (permsConsistent_of_identity rfl rfl)

/-- Settles O52: the step waits, or performs an action, which keeps the vectors or writes consistent ones. -/
theorem stepKeepsPermInvariant : Obligations.StepKeepsPermInvariant := by
  intro s t hs h
  rcases step_next_cases h with rfl | ⟨a, rest, -, ht⟩
  · exact hs
  · rcases transact_vectors ht with ⟨hp, hi⟩ | hc
    · exact hs.of_eq hp hi
    · exact hc

/-! ### The fault latch (R30, R31, spec/60_exceptions.md R165) -/

/-- What `FINFO` holds beside each cause: the refused length, the illegal word, or the word of `ENC 0` or `DEC 0`. -/
def Records : Cause → Word → Prop
  | .keylen, v => v.toNat > 16
  | .illcmd, v => ∃ why, decode v = .illegal why
  | .badrounds, v => v = 0x00000007 ∨ v = 0x00000008

/-- A latched cause with the value it records. -/
theorem latchConsistent_of_records {s : State} {c : Cause} (hs : s.status = faultedStatus c) (hf : Records c s.finfo) :
    LatchConsistent s := by
  unfold LatchConsistent
  cases c <;> rw [hs] <;> exact ⟨rfl, hf⟩

/-- Nothing latched, nothing recorded. -/
theorem latchConsistent_of_clear {s : State} (hs : s.status = clearStatus) (hf : s.finfo = 0) : LatchConsistent s := by
  unfold LatchConsistent
  rw [hs]
  exact ⟨rfl, hf⟩

/-- The invariant is about `STATUS` and `FINFO` alone. -/
theorem LatchConsistent.of_eq {s t : State} (h : LatchConsistent s) (hs : t.status = s.status) (hf : t.finfo = s.finfo) :
    LatchConsistent t := by
  unfold LatchConsistent
  rw [hs, hf]
  exact h

/-- A register write leaves the latch alone, but for the write to `STATUS` that clears it (R175). -/
theorem regWrite_latch {r : RegName} {v : Word} {s t : State} (h : regWrite r v s = some t) :
    (t.status = s.status ∧ t.finfo = s.finfo) ∨
    (r = .status ∧ v.getLsbD 0 = true ∧ t.status = clearStatus ∧ t.finfo = 0) := by
  cases r with
  | status =>
    cases h
    unfold statusWrite
    split
    next hc => exact .inr ⟨rfl, (Bool.and_eq_true_iff.1 hc).2, rfl, rfl⟩
    next => exact .inl ⟨rfl, rfl⟩
  | _ => cases h <;> exact .inl ⟨rfl, rfl⟩

/-- A command leaves the latch alone or latches a cause with the value it records. -/
theorem commandAt_latch (c : Profile) (i : Instr) (s : State) :
    ((commandAt c i s).status = s.status ∧ (commandAt c i s).finfo = s.finfo) ∨
    ∃ e, (commandAt c i s).status = faultedStatus e ∧ Records e (commandAt c i s).finfo := by
  rcases commandAt_cases c i s with h | ⟨-, hl, h⟩ | ⟨hi, h⟩ | ⟨-, k, h⟩ | ⟨-, h⟩ | ⟨-, x, k, h⟩ <;> rw [h]
  · exact .inl ⟨rfl, rfl⟩
  · exact .inr ⟨.keylen, rfl, hl⟩
  · refine .inr ⟨.badrounds, rfl, ?_⟩
    rcases hi with rfl | rfl
    · exact .inl rfl
    · exact .inr rfl
  · exact .inl ⟨rfl, rfl⟩
  · exact .inl ⟨rfl, rfl⟩
  · exact .inl ⟨rfl, rfl⟩

/-- What a host action does to the latch: nothing; with nothing latched, a write to `CMD` latches a cause with the value it
records; a reset or a write to `STATUS` with bit 0 set clears it (R174, R175, R176). -/
theorem transact_latch {a : HostAction} {s t : State} (h : transact a s = .next t) :
    (t.status = s.status ∧ t.finfo = s.finfo) ∨
    ((∃ w, a = .write 0x00 4 w) ∧ s.status.fault = false ∧ ∃ e, t.status = faultedStatus e ∧ Records e t.finfo) ∨
    ((a = .reset ∨ ∃ v : Word, v.getLsbD 0 = true ∧ a = .write 0x04 4 v) ∧ t.status = clearStatus ∧ t.finfo = 0) := by
  rcases transact_cases a s with
    ⟨r, hu⟩ | ⟨r, v, u, ha, hw, hu⟩ | ⟨w, why, ha, hf, hd, hu⟩ | ⟨w, i, ha, hf, -, hu⟩ | ⟨ha, hu⟩ <;>
    obtain rfl := Host.Outcome.next.inj (h.symm.trans hu)
  · exact .inl ⟨rfl, rfl⟩
  · rcases regWrite_latch hw with hk | ⟨rfl, hv, hc⟩
    · exact .inl hk
    · exact .inr (.inr ⟨.inr ⟨v, hv, ha⟩, hc⟩)
  · exact .inr (.inl ⟨⟨w, ha⟩, hf, .illcmd, rfl, why, hd⟩)
  · rcases commandAt_latch Config.profile i (withReply .okay s) with hk | he
    · exact .inl hk
    · exact .inr (.inl ⟨⟨w, ha⟩, hf, he⟩)
  · exact .inr (.inr ⟨.inl ha, rfl, rfl⟩)

/-- What a step does to the latch: nothing, or what the host's next action does to it. -/
theorem step_latch {s t : State} (h : step s = .next t) :
    (t.status = s.status ∧ t.finfo = s.finfo) ∨
    ((∃ w rest, s.pending = .write 0x00 4 w :: rest) ∧ s.status.fault = false ∧
      ∃ e, t.status = faultedStatus e ∧ Records e t.finfo) ∨
    ((∃ rest, s.pending = .reset :: rest ∨ ∃ v : Word, v.getLsbD 0 = true ∧ s.pending = .write 0x04 4 v :: rest) ∧
      t.status = clearStatus ∧ t.finfo = 0) := by
  rcases step_next_cases h with rfl | ⟨a, rest, hp, ht⟩
  · exact .inl ⟨rfl, rfl⟩
  · rcases transact_latch ht with hk | ⟨⟨w, rfl⟩, he⟩ | ⟨rfl | ⟨v, hv, rfl⟩, hc⟩
    · exact .inl hk
    · exact .inr (.inl ⟨⟨w, rest, hp⟩, he⟩)
    · exact .inr (.inr ⟨⟨rest, .inl hp⟩, hc⟩)
    · exact .inr (.inr ⟨⟨rest, .inr ⟨v, hv, hp⟩⟩, hc⟩)

/-- Settles O53: each of the three things a step can do to the latch leaves it consistent. -/
theorem stepKeepsLatchInvariant : Obligations.StepKeepsLatchInvariant := by
  intro s t hs h
  rcases step_latch h with ⟨hst, hf⟩ | ⟨-, -, e, hst, hr⟩ | ⟨-, hst, hf⟩
  · exact hs.of_eq hst hf
  · exact latchConsistent_of_records hst hr
  · exact latchConsistent_of_clear hst hf

/-- Settles O47: the same three things a step can do to the latch, with what each of them needs. -/
theorem faultLatchChangesOnlyAsStated : Obligations.FaultLatchChangesOnlyAsStated := by
  intro s t h
  rcases step_latch h with ⟨hst, hf⟩ | ⟨hw, hfs, e, hst, -⟩ | ⟨ha, hst, -⟩
  · simp +contextual [hst, hf]
  · exact ⟨fun _ _ => hw, fun h1 => by simp [hfs] at h1, fun h1 => by simp [hfs] at h1⟩
  · exact ⟨fun _ h1 => by simp [hst] at h1, fun _ _ => ha, fun _ h1 => by simp [hst] at h1⟩

/-! ### Reset and the reachable states -/

/-- Settles O51: the identity vectors and the clear latch of `State.reset`. -/
theorem invariantsAtReset : Obligations.InvariantsAtReset := fun _ =>
  ⟨permsConsistent_of_identity rfl rfl, latchConsistent_of_clear rfl rfl⟩

/-- Settles O54, by induction on how the state was reached: both invariants hold at reset, do not look at the host's list,
and are kept by every step. -/
theorem reachableStatesAreConsistent : Obligations.ReachableStatesAreConsistent := by
  intro s hr
  induction hr with
  | reset => exact invariantsAtReset []
  | hostAdds s a _ ih => exact ih
  | step s t _ h ih =>
    obtain ⟨hp, hl⟩ := ih
    exact ⟨stepKeepsPermInvariant s t hp h, stepKeepsLatchInvariant s t hl h⟩

/-- Settles O7: the step with nothing left to perform. -/
theorem idleMachineWaits : Obligations.IdleMachineWaits := step_idle

/-- Settles O8: a reset leaves every register as `State.reset` has it. -/
theorem resetGivesEveryRegisterItsValue : Obligations.ResetGivesEveryRegisterItsValue := by
  unfold Obligations.ResetGivesEveryRegisterItsValue
  intro atReset
  have hzeros : ∀ i : Fin 16, B16.zeros[i] = 0 := by decide
  have hident : ∀ i : Fin 8, Perm.identity[i] = i := by decide
  have hstatus : statusWord State.reset.status = 0 := by decide
  have hreset : ∀ as, atReset (withPending as State.reset) := fun as =>
    ⟨fun i => ⟨hzeros i, hzeros i, hzeros i, hzeros i⟩, rfl, hstatus, rfl, rfl, fun i => ⟨hident i, hident i⟩, rfl, rfl⟩
  exact ⟨hreset [], fun s rest h => ⟨_, step_action s .reset rest h, hreset rest⟩⟩

end Sys2Proof.Machine

/-! ## What a command writes and what it depends on -/

namespace Sys2Proof.Machine

/-- Settles O22: the five shapes of what a command leaves, each with the commands that leave it. -/
theorem commandsWriteOnlyTheirRegisters : Obligations.CommandsWriteOnlyTheirRegisters := by
  intro i s t h
  obtain rfl := Host.Outcome.next.inj (h.symm.trans (exec_eq_commandAt i s))
  rcases commandAt_cases Config.profile i s with h | ⟨hi, -, h⟩ | ⟨hi, h⟩ | ⟨hi, k, h⟩ | ⟨hi, h⟩ | ⟨hi, x, k, h⟩ <;> rw [h]
  · simp
  · simp [hi, raiseFault]
  · rcases hi with rfl | rfl <;> simp [raiseFault]
  · simp [hi]
  · simp [hi]
  · simp [hi]

/-- The commands that run at least one round. -/
def RunsRounds (i : Instr) : Prop := i = .renc ∨ i = .rdec ∨ ∃ r, r ≠ 0 ∧ (i = .enc r ∨ i = .dec r)

/-- The results a command that runs rounds records are a function of the key and the block alone
(spec/44_engine.md R157). -/
theorem commandAt_rounds (c : Profile) {i : Instr} (hi : RunsRounds i) :
    ∃ f : B16 → B16 → B16 × B16, ∀ s : State,
      commandAt c i s = recordRound (f s.key s.blk).1 (f s.key s.blk).2 (generate c (f s.key s.blk).2) s := by
  rcases hi with rfl | rfl | ⟨r, hr, rfl | rfl⟩
  · exact ⟨fun k b => (roundEncrypt c k b, k), fun _ => rfl⟩
  · exact ⟨fun k b => (roundDecrypt c k b, k), fun _ => rfl⟩
  · exact ⟨fun k b => encLoop c (r.toNat - 1) k (roundEncrypt c k b), fun s => encAt_of_pos c r s hr⟩
  · exact ⟨fun k b => decLoop c (r.toNat - 1) k (roundDecrypt c k b), fun s => decAt_of_pos c r s hr⟩

/-- Rounds overwrite `SK` with a value that does not depend on it. -/
theorem commandAt_rounds_withSk (c : Profile) {i : Instr} (hi : RunsRounds i) (s : State) (x : B16) :
    commandAt c i { s with sk := x } = commandAt c i s := by
  obtain ⟨f, hf⟩ := commandAt_rounds c hi
  rw [hf, hf]
  rfl

/-- A command that starts with `SK` replaced overwrites `SK`, with the same value, or keeps it as it is; nothing else differs
(spec/10_state.md R23). -/
theorem commandAt_withSk (c : Profile) (i : Instr) (s : State) (x : B16) :
    commandAt c i { s with sk := x } = commandAt c i s ∨
    (commandAt c i { s with sk := x } = { commandAt c i s with sk := x } ∧ (commandAt c i s).sk = s.sk) := by
  cases i with
  | nop => exact .inr ⟨rfl, rfl⟩
  | derive =>
    simp only [commandAt]
    rcases Nat.lt_or_ge 16 s.plen.toNat with h | h
    · rw [deriveAt_of_gt c s h, deriveAt_of_gt c { s with sk := x } h]
      exact .inr ⟨rfl, rfl⟩
    · rw [deriveAt_of_le c s h, deriveAt_of_le c { s with sk := x } h]
      exact .inr ⟨rfl, rfl⟩
  | pgen => exact .inr ⟨rfl, rfl⟩
  | renc => exact .inl (commandAt_rounds_withSk c (.inl rfl) s x)
  | rdec => exact .inl (commandAt_rounds_withSk c (.inr (.inl rfl)) s x)
  | knext => exact .inr ⟨rfl, rfl⟩
  | kprev => exact .inr ⟨rfl, rfl⟩
  | enc r =>
    by_cases h : r = 0
    · subst h
      exact .inr ⟨rfl, rfl⟩
    · exact .inl (commandAt_rounds_withSk c (.inr (.inr ⟨r, h, .inl rfl⟩)) s x)
  | dec r =>
    by_cases h : r = 0
    · subst h
      exact .inr ⟨rfl, rfl⟩
    · exact .inl (commandAt_rounds_withSk c (.inr (.inr ⟨r, h, .inr rfl⟩)) s x)

/-- Settles O23: `SK` is overwritten with the same value in both runs, or kept in both. -/
theorem skIsNeverAnInput : Obligations.SkIsNeverAnInput := by
  intro i s x
  refine ⟨_, _, exec_eq_commandAt i s, exec_eq_commandAt i { s with sk := x }, ?_⟩
  rcases commandAt_withSk Config.profile i s x with h | ⟨h, hk⟩ <;> rw [h]
  · exact ⟨rfl, .inl rfl⟩
  · exact ⟨rfl, .inr ⟨hk, rfl⟩⟩

/-- Settles O24: the vector is generated from the key, and the results of rounds are a function of the key and the block. -/
theorem resultsDependOnKeyAndBlockOnly : Obligations.ResultsDependOnKeyAndBlockOnly := by
  intro s s' hk
  refine ⟨⟨_, _, exec_eq_commandAt .pgen s, exec_eq_commandAt .pgen s', ?_⟩, fun i hi hb => ?_⟩
  · simp [commandAt, pgenAt, hk]
  · obtain ⟨f, hf⟩ := commandAt_rounds Config.profile hi
    refine ⟨_, _, exec_eq_commandAt i s, exec_eq_commandAt i s', ?_⟩
    rw [hf s, hf s', hk, hb]
    exact ⟨rfl, rfl, rfl, rfl⟩

end Sys2Proof.Machine

/-! ## Registers read and written over the port -/

namespace Sys2Proof.Machine

/-- The step of a legal read of a register. -/
theorem step_read_reg {s : State} {rest : List HostAction} {v : Word} (r : RegName)
    (h : s.pending = .read (offsetOf r) 4 :: rest) (hv : regRead r s = some v) :
    step s = .next { s with pending := rest, reply := some (.data v) } := by
  rw [step_action s _ rest h, transact_read_reg r _ v ((regRead_withPending r rest s).trans hv)]
  rfl

/-- The step of a legal write of a register other than `CMD`. -/
theorem step_write_reg {s t : State} {rest : List HostAction} {v : Word} (r : RegName)
    (h : s.pending = .write (offsetOf r) 4 v :: rest) (ht : regWrite r v (withPending rest s) = some t) :
    step s = .next (withReply .okay t) := by
  rw [step_action s _ rest h, transact_write_reg r _ t v ht]

/-- An entry of a vector, shifted to nibble `k` of the bus word: its bits stand in that nibble and nowhere else (R26). -/
theorem getLsbD_entry_shifted (e : Fin 8) (k m : Nat) (hm : m < 32) :
    (BitVec.ofNat 32 e.val <<< (4 * k)).getLsbD m = (decide (m / 4 = k) && e.val.testBit (m % 4)) := by
  have hsmall : ∀ n, 3 ≤ n → e.val.testBit n = false := fun n hn =>
    Nat.testBit_lt_two_pow (lt_of_lt_of_le e.isLt (Nat.pow_le_pow_right Nat.two_pos hn))
  simp only [BitVec.getLsbD_shiftLeft, BitVec.getLsbD_ofNat, hm, decide_true, Bool.true_and]
  rcases Nat.lt_trichotomy (m / 4) k with h | h | h
  · simp [show m < 4 * k by omega, h.ne]
  · rw [show m - 4 * k = m % 4 by omega]
    simp [h, show ¬ m < 4 * k by omega, show m % 4 < 32 by omega]
  · simp [h.ne', hsmall (m - 4 * k) (by omega)]

/-- Nibble `i` of the bus word is entry `i` of the vector (R26). -/
theorem extract_wordOfPerm (p : Perm) (i : Fin 8) : ((wordOfPerm p).extractLsb' (4 * i.val) 4).toNat = p[i].val := by
  have hbits : (wordOfPerm p).extractLsb' (4 * i.val) 4 = BitVec.ofNat 4 p[i].val := by
    apply BitVec.eq_of_getLsbD_eq
    intro j hj
    have hm : 4 * i.val + j < 32 := by omega
    have hd : (4 * i.val + j) / 4 = i.val := by omega
    have hr : (4 * i.val + j) % 4 = j := by omega
    simp only [wordOfPerm, indices8, List.foldl, BitVec.getLsbD_extractLsb', BitVec.getLsbD_or, hj, decide_true,
      Bool.true_and, getLsbD_entry_shifted _ _ _ hm, hd, hr, BitVec.getLsbD_ofNat]
    fin_cases i <;> simp
  rw [hbits, BitVec.toNat_ofNat]
  exact Nat.mod_eq_of_lt (by omega)

/-- Settles O42: reads of two registers whose words hold an entry per nibble. -/
theorem permWordHoldsEntryPerNibble : Obligations.PermWordHoldsEntryPerNibble := by
  intro s rest x hx h
  rcases hx with rfl | rfl
  · exact ⟨_, step_read_reg .perm h rfl, extract_wordOfPerm s.perm⟩
  · exact ⟨_, step_read_reg .iperm h rfl, extract_wordOfPerm s.iperm⟩

/-- Settles O43: the eight values of `STATUS`. -/
theorem statusWordLayout : Obligations.StatusWordLayout := by
  intro s rest h
  refine ⟨_, step_read_reg .status h rfl, ?_⟩
  obtain ⟨fault, cause⟩ := s.status
  rcases cause with _ | _ | _ | _ <;> cases fault <;> decide

/-- Settles O44: two writes that store and three reads, each the rule of its register. -/
theorem plenAndCtrlStoreAndReadBack : Obligations.PlenAndCtrlStoreAndReadBack := by
  intro s v rest
  refine ⟨fun h => ?_, fun h => ?_, fun h => ?_, fun h => ?_, fun h => ?_⟩
  · exact step_write_reg .plen h rfl
  · exact step_write_reg .ctrl h rfl
  · exact step_read_reg .plen h rfl
  · exact step_read_reg .ctrl h rfl
  · exact step_read_reg .finfo h rfl

/-- A 32-bit row's word is the word itself. -/
theorem tableWord_toNat (w : Word) : tableWord 32 w.toNat = w := by
  simp [tableWord, Nat.mod_eq_of_lt w.isLt]

/-- `s` with a latched fault cleared, as `presentCommand` makes the port ready for a command (log entry 4). -/
def unlatched (s : State) : State := if s.status.fault then clearFault s else s

theorem unlatched_of_fault {s : State} (h : s.status.fault = true) : unlatched s = clearFault s := if_pos h

theorem unlatched_of_noFault {s : State} (h : s.status.fault = false) : unlatched s = s := if_neg (by simp [h])

theorem unlatched_fault (s : State) : (unlatched s).status.fault = false := by
  cases h : s.status.fault with
  | true => simp [unlatched_of_fault h]
  | false => rw [unlatched_of_noFault h, h]

/-- Clearing the latch reaches nothing else. -/
theorem unlatched_frame (s : State) :
    unlatched s = { s with status := (unlatched s).status, finfo := (unlatched s).finfo } := by
  cases h : s.status.fault with
  | true =>
    rw [unlatched_of_fault h]
    rfl
  | false => rw [unlatched_of_noFault h]

/-- The step of a presented command word runs its command, the port answering `OKAY`. -/
theorem step_presentCommand {w : Word} {i : Instr} (s : State) (hd : decode w = .command i) :
    step (presentCommand w s) = exec i (withReply .okay (withPending s.pending (unlatched s))) := by
  have hact : step (presentCommand w s) = cmdWrite w (withPending s.pending (unlatched s)) :=
    step_action (presentCommand w s) (.write 0x00 4 w) s.pending rfl
  have hf : (withPending s.pending (unlatched s)).status.fault = false := unlatched_fault s
  rw [hact, cmdWrite_command w i _ hf hd, exec_eq_commandAt]

/-- Settles O6: the presented word is run in the unlatched state. -/
theorem placedWordRunsNext : Obligations.PlacedWordRunsNext := by
  intro s w i hd
  rw [decodeTableWord, State.withFetchWord, tableWord_toNat, hd]
  refine ⟨rfl, _, step_presentCommand s hd, unlatched_fault s, rfl, ?_, fun hf => ?_⟩
  · rw [unlatched_frame s]
    rfl
  · rw [unlatched_of_noFault hf]
    exact ⟨rfl, rfl⟩

end Sys2Proof.Machine

/-! ## Which transactions are refused, and what the ports show -/

namespace Sys2Proof.Machine

/-! ### A write to `CMD` that is accepted -/

/-- Settles O5: the accepted write to `CMD` runs the command it decodes to. -/
theorem stepRunsDecodedCommand : Obligations.StepRunsDecodedCommand := by
  intro s w i rest h hf hd
  have hcmd : step s = cmdWrite w (withPending rest s) := (step_action s _ rest h).trans (transact_cmd w _)
  rw [hcmd, cmdWrite_command w i (withPending rest s) hf hd, exec_eq_commandAt]
  rfl

/-! ### Where there is no register (spec/20_memory.md R53, R54) -/

/-- Not 4 bytes, not at a multiple of 4, or at an offset the register map leaves out. -/
def NoRegisterAt (off : BitVec 8) (n : Nat) : Prop :=
  n ≠ 4 ∨ off.toNat % 4 ≠ 0 ∨ off.toNat ≥ 0x60 ∨ off = 0x14

/-- The offsets the register map leaves out (R51). -/
theorem regAt_eq_none_iff :
    ∀ off : BitVec 8, regAt off = none ↔ off.toNat % 4 ≠ 0 ∨ off.toNat ≥ 0x60 ∨ off = 0x14 := by
  decide +kernel

theorem noRegisterAt_iff (off : BitVec 8) (n : Nat) : NoRegisterAt off n ↔ n ≠ 4 ∨ regAt off = none := by
  rw [regAt_eq_none_iff]
  rfl

theorem not_noRegisterAt_offsetOf (r : RegName) : ¬ NoRegisterAt (offsetOf r) 4 := by
  simp [noRegisterAt_iff, regAt_offsetOf]

/-- A transaction finds no register, or is the 4-byte access to one. -/
theorem noRegisterAt_or_offsetOf (off : BitVec 8) (n : Nat) :
    NoRegisterAt off n ∨ ∃ r, off = offsetOf r ∧ n = 4 := by
  rw [noRegisterAt_iff]
  by_cases hn : n = 4
  · cases hr : regAt off with
    | none => exact .inl (.inr rfl)
    | some r => exact .inr ⟨r, offsetOf_of_regAt off r hr, hn⟩
  · exact .inl (.inl hn)

/-- An illegal access is refused before the register map is looked at (R53); a legal one finds no register in it (R54). -/
theorem legalAccess_or_regAt_of_noRegisterAt {off : BitVec 8} {n : Nat} (h : NoRegisterAt off n) :
    legalAccess off n = false ∨ regAt off = none := by
  rcases (noRegisterAt_iff off n).1 h with hn | hr
  · exact .inl (by simp [legalAccess, hn])
  · exact .inr hr

theorem transact_read_noRegister {off : BitVec 8} {n : Nat} (s : State) (h : NoRegisterAt off n) :
    transact (.read off n) s = .next (withReply .err s) := by
  rcases legalAccess_or_regAt_of_noRegisterAt h with hl | hr
  · simp [transact, readReply, hl]
  · simp [transact, readReply, hr]

theorem transact_write_noRegister {off : BitVec 8} {n : Nat} (v : Word) (s : State) (h : NoRegisterAt off n) :
    transact (.write off n v) s = .next (withReply .err s) := by
  rcases legalAccess_or_regAt_of_noRegisterAt h with hl | hr
  · simp [transact, busWrite, hl]
  · simp [transact, busWrite, hr]

/-! ### Which registers refuse an access (R55) -/

/-- The registers the host can read but not write (R20). -/
def ReadOnly (r : RegName) : Prop := r = .finfo ∨ r = .perm ∨ r = .iperm ∨ ∃ w, r = .sk w

/-- `CMD` alone stands at offset 0 (R51). -/
theorem offsetOf_eq_zero_iff (r : RegName) : offsetOf r = 0x00 ↔ r = .cmd := by
  refine ⟨fun h => ?_, fun h => h ▸ rfl⟩
  have hr := regAt_offsetOf r
  rw [h] at hr
  exact (Option.some.inj hr).symm

/-- The offsets of the read-only registers (R51). -/
theorem readOnly_iff_offsetOf (r : RegName) :
    ReadOnly r ↔ offsetOf r = 0x0C ∨ offsetOf r = 0x18 ∨ offsetOf r = 0x1C ∨ offsetOf r = 0x40 ∨ offsetOf r = 0x44 ∨
      offsetOf r = 0x48 ∨ offsetOf r = 0x4C := by
  cases r with
  | pass w => fin_cases w <;> simp [ReadOnly, offsetOf]
  | key w => fin_cases w <;> simp [ReadOnly, offsetOf]
  | sk w => fin_cases w <;> simp [ReadOnly, offsetOf]
  | blk w => fin_cases w <;> simp [ReadOnly, offsetOf]
  | _ => simp [ReadOnly, offsetOf]

/-- Every register but `CMD` can be read. -/
theorem regRead_of_ne_cmd {r : RegName} (h : r ≠ .cmd) (s : State) : ∃ v, regRead r s = some v := by
  cases r with
  | cmd => exact absurd rfl h
  | _ => exact ⟨_, rfl⟩

/-- A register is `CMD`, or refuses every write, or stores every write. -/
theorem regWrite_cases (r : RegName) (v : Word) (s : State) :
    r = .cmd ∨ (ReadOnly r ∧ regWrite r v s = none) ∨ (r ≠ .cmd ∧ ¬ ReadOnly r ∧ ∃ t, regWrite r v s = some t) := by
  cases r with
  | cmd => exact .inl rfl
  | finfo | perm | iperm | sk w => exact .inr (.inl ⟨by simp [ReadOnly], rfl⟩)
  | status | ctrl | plen | pass w | key w | blk w => exact .inr (.inr ⟨by simp, by simp [ReadOnly], _, rfl⟩)

theorem transact_read_cmd (s : State) : transact (.read 0x00 4) s = .next (withReply .err s) := rfl

theorem transact_write_readOnly {r : RegName} (v : Word) (s : State) (h : ReadOnly r) :
    transact (.write (offsetOf r) 4 v) s = .next (withReply .err s) := by
  rcases h with rfl | rfl | rfl | ⟨w, rfl⟩
  · rfl
  · rfl
  · rfl
  · simp only [transact, busWrite, legalAccess_offsetOf, regAt_offsetOf]
    rfl

/-- No command answers on the port: the answer to its write stands. -/
theorem commandAt_reply (c : Profile) (i : Instr) (s : State) : (commandAt c i s).reply = s.reply := by
  rcases commandAt_cases c i s with h | ⟨-, -, h⟩ | ⟨-, h⟩ | ⟨-, k, h⟩ | ⟨-, h⟩ | ⟨-, x, k, h⟩ <;> rw [h] <;> rfl

/-- With nothing latched every write to `CMD` is answered `OKAY`, whatever the word (R55). -/
theorem cmdWrite_okay (w : Word) {s : State} (hf : s.status.fault = false) :
    ∃ t, cmdWrite w s = .next t ∧ t.reply = some .okay := by
  cases hd : decode w with
  | illegal why => exact ⟨_, cmdWrite_illegal w why s hf hd, rfl⟩
  | command i => exact ⟨_, cmdWrite_command w i s hf hd, commandAt_reply ..⟩

/-! ### The answer to a transaction -/

/-- A read puts its answer on the port and does nothing else: `ERR` where there is no register or it is `CMD`, else a word. -/
theorem transact_read_cases (off : BitVec 8) (n : Nat) (s : State) :
    ((NoRegisterAt off n ∨ off = 0x00) ∧ transact (.read off n) s = .next (withReply .err s)) ∨
    (¬ (NoRegisterAt off n ∨ off = 0x00) ∧ ∃ v, transact (.read off n) s = .next (withReply (.data v) s)) := by
  rcases noRegisterAt_or_offsetOf off n with h | ⟨r, rfl, rfl⟩
  · exact .inl ⟨.inl h, transact_read_noRegister s h⟩
  by_cases hr : r = .cmd
  · subst hr
    exact .inl ⟨.inr rfl, transact_read_cmd s⟩
  · obtain ⟨v, hv⟩ := regRead_of_ne_cmd hr s
    refine .inr ⟨?_, v, transact_read_reg r s v hv⟩
    rw [offsetOf_eq_zero_iff]
    exact not_or.2 ⟨not_noRegisterAt_offsetOf r, hr⟩

/-- The writes that get `ERR` (R53 to R55, spec/60_exceptions.md R174). -/
def WriteRefused (off : BitVec 8) (n : Nat) (s : State) : Prop :=
  NoRegisterAt off n ∨ off = 0x0C ∨ off = 0x18 ∨ off = 0x1C ∨ off = 0x40 ∨ off = 0x44 ∨ off = 0x48 ∨ off = 0x4C ∨
    (off = 0x00 ∧ s.status.fault = true)

/-- A 4-byte write to a register is refused where the register is read only, or is `CMD` with a fault latched. -/
theorem writeRefused_offsetOf_iff (r : RegName) (s : State) :
    WriteRefused (offsetOf r) 4 s ↔ ReadOnly r ∨ (r = .cmd ∧ s.status.fault = true) := by
  simp only [WriteRefused, not_noRegisterAt_offsetOf, readOnly_iff_offsetOf, offsetOf_eq_zero_iff, false_or, or_assoc]

/-- A refused write puts `ERR` on the port and does nothing else; any other is answered `OKAY`. -/
theorem transact_write_cases (off : BitVec 8) (n : Nat) (v : Word) (s : State) :
    (WriteRefused off n s ∧ transact (.write off n v) s = .next (withReply .err s)) ∨
    (¬ WriteRefused off n s ∧ ∃ t, transact (.write off n v) s = .next t ∧ t.reply = some .okay) := by
  rcases noRegisterAt_or_offsetOf off n with h | ⟨r, rfl, rfl⟩
  · exact .inl ⟨.inl h, transact_write_noRegister v s h⟩
  rw [writeRefused_offsetOf_iff]
  rcases regWrite_cases r v s with rfl | ⟨hro, -⟩ | ⟨hc, hro, t, ht⟩
  · cases hf : s.status.fault with
    | true => exact .inl ⟨.inr ⟨rfl, rfl⟩, cmdWrite_faulted v s hf⟩
    | false => exact .inr ⟨by simp [ReadOnly], cmdWrite_okay v hf⟩
  · exact .inl ⟨.inl hro, transact_write_readOnly v s hro⟩
  · exact .inr ⟨by simp [hro, hc], _, transact_write_reg r s t v ht, rfl⟩

/-- Every write is answered `ERR` or `OKAY`. -/
theorem transact_write_answer (off : BitVec 8) (n : Nat) (v : Word) (s : State) :
    ∃ t, transact (.write off n v) s = .next t ∧ (t.reply = some .err ∨ t.reply = some .okay) := by
  rcases transact_write_cases off n v s with ⟨-, h⟩ | ⟨-, t, h, hr⟩
  · exact ⟨_, h, .inl rfl⟩
  · exact ⟨t, h, .inr hr⟩

/-- Taking an action off the host's list and answering on the port reaches no register. -/
theorem sameRegisters_withReply (r : Reply) (rest : List HostAction) (s : State) :
    SameRegisters s (withReply r (withPending rest s)) := by simp [SameRegisters]

/-- Settles O40: the two kinds of read and the two kinds of write. -/
theorem busErrorsExactly : Obligations.BusErrorsExactly := by
  refine ⟨fun s off n rest h => ?_, fun s off n v rest h => ?_⟩ <;> rw [step_action s _ rest h]
  · rcases transact_read_cases off n (withPending rest s) with ⟨hbad, ht⟩ | ⟨hgood, v, ht⟩
    · exact ⟨_, ht, sameRegisters_withReply .err rest s, iff_of_true rfl hbad, fun hne => absurd rfl hne⟩
    · exact ⟨_, ht, sameRegisters_withReply (.data v) rest s, iff_of_false (by simp) hgood, fun _ => ⟨v, rfl⟩⟩
  · rcases transact_write_cases off n v (withPending rest s) with ⟨hbad, ht⟩ | ⟨hgood, t, ht, hr⟩
    · exact ⟨_, ht, fun _ => sameRegisters_withReply .err rest s, .inl rfl, iff_of_true rfl hbad⟩
    · exact ⟨t, ht, fun he => by simp [hr] at he, .inr hr, iff_of_false (by simp [hr]) hgood⟩

/-! ### The words of a 16-byte register (R56) -/

/-- The word of a register holds each of its bytes that stands in that word. -/
theorem extract_wordOf_byte (x : B16) (w : Fin 4) (i : Fin 16) (h : i.val / 4 = w.val) :
    (wordOf x w).extractLsb' (8 * (i.val % 4)) 8 = x[i] := by
  have hi : 4 * w.val + i.val % 4 = i.val := by omega
  have hx := extract_wordOf x w ⟨i.val % 4, by omega⟩
  simpa only [hi, Fin.getElem_fin] using hx

/-- A write of a word, as the sixteen bytes it leaves. -/
theorem withWord_eq_ofFn (x : B16) (w : Fin 4) (v : Word) :
    withWord x w v =
      Vector.ofFn fun i : Fin 16 => if i.val / 4 = w.val then v.extractLsb' (8 * (i.val % 4)) 8 else x[i] :=
  b16_eq_of_bytes fun i => by simp [getElem_withWord]

/-- The offsets of the words of the four 16-byte registers (R51). -/
theorem ofNat_eq_offsetOf (w : Fin 4) :
    BitVec.ofNat 8 (0x20 + 4 * w.val) = offsetOf (.pass w) ∧ BitVec.ofNat 8 (0x30 + 4 * w.val) = offsetOf (.key w) ∧
    BitVec.ofNat 8 (0x40 + 4 * w.val) = offsetOf (.sk w) ∧ BitVec.ofNat 8 (0x50 + 4 * w.val) = offsetOf (.blk w) := by
  revert w
  decide

/-- Settles O41: a read and a write of a word, register by register. -/
theorem wordPackingIsLittleEndian : Obligations.WordPackingIsLittleEndian := by
  refine ⟨fun s w rest x hx h => ?_, fun s w v rest base hb h => ?_⟩ <;>
    obtain ⟨hpass, hkey, hsk, hblk⟩ := ofNat_eq_offsetOf w
  · simp only [List.mem_cons, List.not_mem_nil, or_false] at hx
    rcases hx with rfl | rfl | rfl | rfl
    · exact ⟨_, step_read_reg (.pass w) (hpass ▸ h) rfl, extract_wordOf_byte s.pass w⟩
    · exact ⟨_, step_read_reg (.key w) (hkey ▸ h) rfl, extract_wordOf_byte s.key w⟩
    · exact ⟨_, step_read_reg (.sk w) (hsk ▸ h) rfl, extract_wordOf_byte s.sk w⟩
    · exact ⟨_, step_read_reg (.blk w) (hblk ▸ h) rfl, extract_wordOf_byte s.blk w⟩
  · simp only [← withWord_eq_ofFn]
    rcases hb with rfl | rfl | rfl
    · exact step_write_reg (.pass w) (hpass ▸ h) rfl
    · exact step_write_reg (.key w) (hkey ▸ h) rfl
    · exact step_write_reg (.blk w) (hblk ▸ h) rfl

/-! ### The ports (spec/70_reset_and_hazards.md R189) -/

/-- The step of a state whose only waiting action is `a`. -/
theorem step_single {s : State} (a : HostAction) (h : s.pending = []) :
    step (withPending [a] s) = transact a s := by
  have hs : withPending [] s = s := withPending_of_pending_eq h
  calc step (withPending [a] s) = transact a (withPending [] s) := step_action _ a [] rfl
    _ = transact a s := by rw [hs]

/-- An action on the ports is added behind nothing when nothing waits. -/
theorem offerPort_of_action {p : PortIn} {a : HostAction} {s : State} (h : s.pending = []) (ha : p.action = some a) :
    offerPort p s = withPending [a] s := by
  simp [offerPort, ha, h]

/-- A selected transaction is the write or read of `addr` of the size the ports name. -/
theorem action_selected {p : PortIn} (hr : p.rstN = true) (hs : p.sel = true) :
    p.action = some (if p.write then .write p.addr (bytesOfSize p.size) p.wdata
      else .read p.addr (bytesOfSize p.size)) := by
  cases hw : p.write <;> simp [PortIn.action, hr, hs, hw]

/-- A selected transaction of a size other than 2 is a read or write that is not of 4 bytes: it is refused (R53). -/
theorem transact_of_illegal_size {p : PortIn} (s : State) (hr : p.rstN = true) (hs : p.sel = true) (hz : p.size ≠ 2) :
    ∃ a, p.action = some a ∧ transact a s = .next (withReply .err s) := by
  have hbad : NoRegisterAt p.addr (bytesOfSize p.size) := .inl (bytesOfSize_ne_four p.size hz)
  refine ⟨_, action_selected hr hs, ?_⟩
  cases p.write with
  | true => exact transact_write_noRegister p.wdata s hbad
  | false => exact transact_read_noRegister s hbad

/-- With an answer on the port, `ready` is high. -/
theorem portOut_ready {t : State} {r : Reply} (h : t.reply = some r) : (portOut t).ready = true := by simp [portOut, h]

/-- With an answer on the port, `resp` is 0 exactly for an answer other than `ERR`. -/
theorem portOut_resp_okay {t : State} {r : Reply} (h : t.reply = some r) :
    t.reply ≠ some .err ↔ (portOut t).resp = some false := by
  cases r <;> simp [portOut, h, respOf]

/-- The answer to a write shows no word. -/
theorem portOut_rdata_of_write {t : State} (h : t.reply = some .err ∨ t.reply = some .okay) :
    (portOut t).rdata = none := by
  rcases h with h | h <;> simp [portOut, h, rdataOf]

/-- Settles O45: the action the ports ask for is the only one waiting, so the step is that action. -/
theorem portSizeOtherThanTwoIsRefused : Obligations.PortSizeOtherThanTwoIsRefused := by
  intro p s h
  refine ⟨fun hr => ?_, fun hr hs hz => ?_, fun hr hs hz => ?_, fun hr hs => ?_⟩
  · rw [offerPort_of_action h (action_reset p hr), step_single .reset h]
    exact congrArg (fun as => Host.Outcome.next (withPending as State.reset)) h
  · obtain ⟨a, ha, ht⟩ := transact_of_illegal_size s hr hs hz
    rw [offerPort_of_action h ha, step_single a h]
    exact ⟨_, ht, rfl, by simp [SameRegisters]⟩
  · rw [offerPort_of_action h (action_size_two p hr hs hz)]
    cases hw : p.write with
    | true =>
      obtain ⟨t, ht, hans⟩ := transact_write_answer p.addr 4 p.wdata s
      have hstep : step (withPending [.write p.addr 4 p.wdata] s) = .next t := (step_single _ h).trans ht
      obtain ⟨r, hrep⟩ : ∃ r, t.reply = some r := hans.elim (fun e => ⟨_, e⟩) fun e => ⟨_, e⟩
      exact ⟨t, hstep, hstep, portOut_ready hrep, rfl, (portOut_resp_err t).symm, portOut_resp_okay hrep, portOut_rdata t,
        fun hf => by simp at hf, fun _ => portOut_rdata_of_write hans⟩
    | false =>
      have hstep : step (withPending [.read p.addr 4] s) = .next (withReply (readReply p.addr 4 s) s) := step_single _ h
      refine ⟨_, hstep, hstep, rfl, rfl, (portOut_resp_err _).symm, portOut_resp_okay rfl, portOut_rdata _,
        fun _ r v hreg hv => ?_, fun hf => by simp at hf⟩
      have hans : readReply p.addr 4 s = .data v := by simp [readReply, legalAccess_of_regAt p.addr r hreg, hreg, hv]
      rw [hans]
      exact ⟨by simp [SameRegisters], rfl, rfl⟩
  · simp [offerPort, action_idle p hr hs]

end Sys2Proof.Machine

/-! ## The command words (spec/30_encoding.md R80 to R84) -/

namespace Sys2Proof

/-- The number a laid-out word stands for: the round count above the opcode (R80). -/
theorem toNat_wordOfFields (r : BitVec 16) (op : Byte) : (wordOfFields r op).toNat = 256 * r.toNat + op.toNat := by
  have hz := fieldZ_toNat (wordOfFields r op)
  have hop := fieldOP_toNat (wordOfFields r op)
  have hr := fieldR_toNat (wordOfFields r op)
  simp only [fieldZ_wordOfFields, fieldOP_wordOfFields, fieldR_wordOfFields, BitVec.ofNat_eq_ofNat,
    BitVec.toNat_ofNat] at hz hop hr
  omega

/-- A command's word decodes to it. -/
theorem decode_encode (i : Instr) : decode (encode i) = .command i := by
  cases i <;> exact decode_wordOfFields _ _

/-- Fields that the decoder has no reason to reject (R84) are those of a command's word. -/
theorem exists_encode_of_legal_fields {r : BitVec 16} {op : Byte} (hop : op ≤ 0x08) (hr : op ≤ 0x06 → r = 0) :
    ∃ i, wordOfFields r op = encode i := by
  have hcases : op = 0 ∨ op = 1 ∨ op = 2 ∨ op = 3 ∨ op = 4 ∨ op = 5 ∨ op = 6 ∨ op = 7 ∨ op = 8 := by
    bv_omega
  rcases hcases with rfl | rfl | rfl | rfl | rfl | rfl | rfl | rfl | rfl
  · exact ⟨.nop, by rw [hr (by decide)]; rfl⟩
  · exact ⟨.derive, by rw [hr (by decide)]; rfl⟩
  · exact ⟨.pgen, by rw [hr (by decide)]; rfl⟩
  · exact ⟨.renc, by rw [hr (by decide)]; rfl⟩
  · exact ⟨.rdec, by rw [hr (by decide)]; rfl⟩
  · exact ⟨.knext, by rw [hr (by decide)]; rfl⟩
  · exact ⟨.kprev, by rw [hr (by decide)]; rfl⟩
  · exact ⟨.enc r, rfl⟩
  · exact ⟨.dec r, rfl⟩

/-- A word that decodes to some command is the word of some command. -/
theorem exists_encode_of_decode {w : Word} {i : Instr} (h : decode w = .command i) : ∃ j, w = encode j := by
  have hlegal : ¬ ∃ why, decode w = .illegal why := by simp [h]
  rw [decode, decodeFields_illegal_iff] at hlegal
  simp only [not_or, not_and, not_not, gt_iff_lt, BitVec.not_lt] at hlegal
  obtain ⟨hz, hop, hr⟩ := hlegal
  rw [← wordOfFields_of_fieldZ w hz]
  exact exists_encode_of_legal_fields hop hr

/-- The decoder and the encoder are inverse to each other on the command words. -/
theorem decode_eq_command_iff (i : Instr) (w : Word) : decode w = .command i ↔ w = encode i := by
  constructor
  · intro h
    obtain ⟨j, rfl⟩ := exists_encode_of_decode h
    rw [Decoded.command.inj ((decode_encode j).symm.trans h)]
  · rintro rfl
    exact decode_encode i

/-- Settles O1: the two directions, and the numbers of the two format R words. -/
theorem decodeInvertsEncode : Obligations.DecodeInvertsEncode :=
  ⟨decode_eq_command_iff, fun r => ⟨toNat_wordOfFields r 0x07, toNat_wordOfFields r 0x08⟩⟩

/-! ### The opcode map (R83) -/

/-- The format R mask keeps fields `Z` and `OP`. -/
theorem fields_and_mask (w : Word) :
    fieldZ (w &&& 0xFF0000FF) = fieldZ w ∧ fieldOP (w &&& 0xFF0000FF) = fieldOP w := by
  constructor
  all_goals
    apply BitVec.eq_of_getLsbD_eq
    intro i hi
    simp only [fieldZ, fieldOP, BitVec.getLsbD_extractLsb', BitVec.getLsbD_and]
    interval_cases i <;> simp

/-- The format R mask selects the words with `Z = 0` and the given opcode, whatever the round count. -/
theorem and_mask_eq_iff (w : Word) (op : Byte) :
    w &&& 0xFF0000FF = op.setWidth 32 ↔ ∃ r, w = wordOfFields r op := by
  constructor
  · intro h
    rw [← Laws.EncodesInItsRow.mask_wordOfFields 0 op] at h
    obtain ⟨hz, hop⟩ := fields_and_mask w
    rw [h] at hz hop
    simp only [fields_and_mask, fieldZ_wordOfFields, fieldOP_wordOfFields] at hz hop
    exact ⟨fieldR w, by rw [hop, wordOfFields_of_fieldZ w hz.symm]⟩
  · rintro ⟨r, rfl⟩
    exact Laws.EncodesInItsRow.mask_wordOfFields r op

/-- The commands of format Z, which have no operand (R81). -/
def formatZ : List Instr := [.nop, .derive, .pgen, .renc, .rdec, .knext, .kprev]

/-- A mnemonic of format Z is that of one command alone. -/
theorem mnemonic_eq_iff_of_formatZ {i : Instr} (hi : i ∈ formatZ) (j : Instr) : j.mnemonic = i.mnemonic ↔ j = i := by
  cases i <;> cases j <;> simp_all [formatZ, Instr.mnemonic]

/-- A format Z row: the full mask selects the one word of its command. -/
theorem formatZ_row_selects {i : Instr} (hi : i ∈ formatZ) (w : Word) :
    w &&& 0xFFFFFFFF = encode i ↔ ∃ j, decode w = .command j ∧ j.mnemonic = i.mnemonic := by
  have hmask : w &&& 0xFFFFFFFF = w := BitVec.and_allOnes
  simp only [hmask, mnemonic_eq_iff_of_formatZ hi, exists_eq_right, decode_eq_command_iff]

/-- A format R row, whose mnemonic is that of a command for every round count. -/
theorem formatR_row_selects {f : BitVec 16 → Instr} {op : Byte} {name : String}
    (hname : ∀ j : Instr, j.mnemonic = name ↔ ∃ r, j = f r) (hword : ∀ r, encode (f r) = wordOfFields r op)
    (w : Word) :
    w &&& 0xFF0000FF = op.setWidth 32 ↔ ∃ j, decode w = .command j ∧ j.mnemonic = name := by
  rw [and_mask_eq_iff]
  simp only [hname, decode_eq_command_iff]
  constructor
  · rintro ⟨r, rfl⟩
    exact ⟨f r, (hword r).symm, r, rfl⟩
  · rintro ⟨-, hw, r, rfl⟩
    exact ⟨r, hw.trans (hword r)⟩

/-- Settles O2, row by row: seven rows of one word, two of one word per round count. -/
theorem decodeFollowsOpcodeMap : Obligations.DecodeFollowsOpcodeMap := by
  intro w row hrow
  simp only [opcodeRows, List.mem_cons, List.not_mem_nil, or_false] at hrow
  rcases hrow with rfl | rfl | rfl | rfl | rfl | rfl | rfl | rfl | rfl
  · exact formatZ_row_selects (i := .nop) (by decide) w
  · exact formatZ_row_selects (i := .derive) (by decide) w
  · exact formatZ_row_selects (i := .pgen) (by decide) w
  · exact formatZ_row_selects (i := .renc) (by decide) w
  · exact formatZ_row_selects (i := .rdec) (by decide) w
  · exact formatZ_row_selects (i := .knext) (by decide) w
  · exact formatZ_row_selects (i := .kprev) (by decide) w
  · exact formatR_row_selects (f := .enc) (op := 0x07) (fun j => by cases j <;> simp [Instr.mnemonic]) (fun _ => rfl) w
  · exact formatR_row_selects (f := .dec) (op := 0x08) (fun j => by cases j <;> simp [Instr.mnemonic]) (fun _ => rfl) w

/-- Settles O3: ten commands' words, and a word for each reason to reject. -/
theorem commandWordSamples : Obligations.CommandWordSamples :=
  ⟨decode_encode .nop, decode_encode .derive, decode_encode .pgen, decode_encode .renc, decode_encode .rdec,
    decode_encode .knext, decode_encode .kprev, decode_encode (.enc 65535), decode_encode (.dec 3), decode_encode (.enc 0),
    by decide, by decide, by decide⟩

end Sys2Proof

/-! ## The pseudo-lines of a script (spec/30_encoding.md R92) -/

namespace Sys2Proof.Machine

/-! ### Sixteen bytes as four words -/

/-- Writing the four words of `x` leaves `x`, whatever the register held. -/
theorem withWord_four_words (x y : B16) :
    withWord (withWord (withWord (withWord y 0 (wordOf x 0)) 1 (wordOf x 1)) 2 (wordOf x 2)) 3 (wordOf x 3) = x := by
  apply b16_eq_of_bytes
  intro i
  have hword : i.val / 4 = 0 ∨ i.val / 4 = 1 ∨ i.val / 4 = 2 ∨ i.val / 4 = 3 := by omega
  rcases hword with h | h | h | h
  · simpa [getElem_withWord, h] using extract_wordOf_byte x 0 i h
  · simpa [getElem_withWord, h] using extract_wordOf_byte x 1 i h
  · simpa [getElem_withWord, h] using extract_wordOf_byte x 2 i h
  · simpa [getElem_withWord, h] using extract_wordOf_byte x 3 i h

/-- The four bytes of word `w` of a register. -/
theorem bytesOfWord_wordOf (x : B16) (w : Fin 4) :
    bytesOfWord (wordOf x w) = [x[4 * w.val], x[4 * w.val + 1], x[4 * w.val + 2], x[4 * w.val + 3]] := by
  simpa [bytesOfWord] using
    And.intro (extract_wordOf x w 0) ⟨extract_wordOf x w 1, extract_wordOf x w 2, extract_wordOf x w 3⟩

/-- The bytes of the four words of a register are its bytes in index order (R56). -/
theorem bytesOfWords_wordOf (x : B16) : bytesOfWords (words4.map (wordOf x)) = x.toList := by
  have hbytes : bytesOfWords (words4.map (wordOf x)) =
      [x[0], x[1], x[2], x[3], x[4], x[5], x[6], x[7], x[8], x[9], x[10], x[11], x[12], x[13], x[14], x[15]] := by
    simp [bytesOfWords, words4, bytesOfWord_wordOf]
  rw [hbytes]
  refine List.ext_getElem (by simp) fun i hi _ => ?_
  simp only [List.length_cons, List.length_nil] at hi
  interval_cases i <;> simp

/-- The padded passphrase is the bytes and then zeros (R92). -/
theorem toList_padPass {p : Bytes} (h : p.length ≤ 16) : (padPass p).toList = p ++ List.replicate (16 - p.length) 0 := by
  refine List.ext_getElem (by simp [h]) fun i hi _ => ?_
  simp only [padPass, Vector.getElem_toList, Vector.getElem_ofFn, List.getElem_append, List.getD_eq_getElem?_getD]
  split
  next hlt => simp [hlt]
  next hge => simp [Nat.le_of_not_lt hge]

/-! ### Loading and reading a 16-byte register -/

/-- `hold y o` is a state in which the register whose words are `reg` holds `y` and the port's last answer is `o`: a write of
a word of that register changes these two and nothing else. -/
def HoldsRegister (reg : Fin 4 → RegName) (hold : B16 → Option Reply → State) : Prop :=
  ∀ y o w v, (hold y o).reply = o ∧ transact (wr (reg w) v) (hold y o) = .next (hold (withWord y w v) (some .okay))

theorem holdsRegister_key (s : State) : HoldsRegister .key fun y o => { s with key := y, reply := o } := fun _ _ w v =>
  ⟨rfl, transact_write_reg (.key w) _ _ v rfl⟩

theorem holdsRegister_blk (s : State) : HoldsRegister .blk fun y o => { s with blk := y, reply := o } := fun _ _ w v =>
  ⟨rfl, transact_write_reg (.blk w) _ _ v rfl⟩

theorem holdsRegister_pass (s : State) : HoldsRegister .pass fun y o => { s with pass := y, reply := o } := fun _ _ w v =>
  ⟨rfl, transact_write_reg (.pass w) _ _ v rfl⟩

/-- A write of a word of the register, before the rest of its sequence. -/
theorem HoldsRegister.runActions_wr_cons {reg : Fin 4 → RegName} {hold : B16 → Option Reply → State}
    (h : HoldsRegister reg hold) {y : B16} {o : Option Reply} {w : Fin 4} {v : Word} {as : List HostAction} {u : State}
    {rs : List (Option Reply)} (hr : runActions as (hold (withWord y w v) (some .okay)) = some (u, rs)) :
    runActions (wr (reg w) v :: as) (hold y o) = some (u, some .okay :: rs) := by
  obtain ⟨hreply, -⟩ := h (withWord y w v) (some .okay) w v
  obtain ⟨-, hact⟩ := h y o w v
  have hrun := runActions_cons_of_next hact hr
  rwa [hreply] at hrun

/-- Four writes load the register. -/
theorem HoldsRegister.runActions_loadWords {reg : Fin 4 → RegName} {hold : B16 → Option Reply → State}
    (h : HoldsRegister reg hold) (x y : B16) (o : Option Reply) :
    runActions (loadWords reg x) (hold y o) = some (hold x (some .okay), List.replicate 4 (some .okay)) := by
  refine h.runActions_wr_cons (h.runActions_wr_cons (h.runActions_wr_cons (h.runActions_wr_cons ?_)))
  rw [withWord_four_words]
  rfl

/-- Four reads answer with the four words of the register and change nothing but the answer on the port. -/
theorem runActions_readWords {reg : Fin 4 → RegName} {s : State} {x : B16}
    (h : ∀ w o, regRead (reg w) { s with reply := o } = some (wordOf x w)) :
    runActions (readWords reg) s =
      some (withReply (.data (wordOf x 3)) s, words4.map fun w => some (.data (wordOf x w))) := by
  have hread : ∀ o w, transact (rd (reg w)) { s with reply := o } = .next (withReply (.data (wordOf x w)) s) := fun o w =>
    transact_read_reg (reg w) _ _ (h w o)
  exact runActions_cons_of_next (hread s.reply 0) <| runActions_cons_of_next (hread _ 1) <|
    runActions_cons_of_next (hread _ 2) <| runActions_cons_of_next (hread _ 3) rfl

/-- Two sequences that go through, one after the other. -/
theorem runActions_append_of_some {as bs : List HostAction} {s t u : State} {rs qs : List (Option Reply)}
    (ha : runActions as s = some (t, rs)) (hb : runActions bs t = some (u, qs)) :
    runActions (as ++ bs) s = some (u, rs ++ qs) := by
  simp [runActions_append, ha, hb]

/-! ### The lines -/

/-- A script of one line runs the line's actions. -/
theorem runScript_single {l : ScriptLine} {as : List HostAction} {s t : State} {rs : List (Option Reply)}
    (hl : lineActions l s = some as) (hr : runActions as s = some (t, rs)) : runScript [l] s = some (t, wordsRead rs) := by
  simp [runScript, hl, hr]

theorem runScript_ldkey (s : State) (x : B16) :
    runScript [.ldkey x] s = some ({ s with key := x, reply := some .okay }, []) :=
  runScript_single rfl ((holdsRegister_key s).runActions_loadWords x s.key s.reply)

theorem runScript_ldblk (s : State) (x : B16) :
    runScript [.ldblk x] s = some ({ s with blk := x, reply := some .okay }, []) :=
  runScript_single rfl ((holdsRegister_blk s).runActions_loadWords x s.blk s.reply)

/-- `mvsk` reads the four words of `SK` and loads `KEY` with them. -/
theorem runScript_mvsk (s : State) :
    runScript [.mvsk] s = some ({ s with key := s.sk, reply := some .okay }, words4.map (wordOf s.sk)) := by
  have hread := runActions_readWords (reg := .sk) (s := s) (x := s.sk) fun _ _ => rfl
  have hload := (holdsRegister_key s).runActions_loadWords s.sk s.key (some (.data (wordOf s.sk 3)))
  exact runScript_single (as := readWords .sk ++ loadWords .key s.sk) rfl (runActions_append_of_some hread hload)

/-- `ldpass` loads `PASS` with the padded bytes and then `PLEN` with their number. -/
theorem runScript_ldpass (s : State) {text : List Char} {p : Bytes} (hp : asciiBytes text = some p) (hl : p.length ≤ 16) :
    runScript [.ldpass text] s =
      some ({ s with pass := padPass p, plen := BitVec.ofNat 32 p.length, reply := some .okay }, []) := by
  have hactions : lineActions (.ldpass text) s =
      some (loadWords .pass (padPass p) ++ [wr .plen (BitVec.ofNat 32 p.length)]) := by
    simp [lineActions, passActions, hp, hl]
  have hload := (holdsRegister_pass s).runActions_loadWords (padPass p) s.pass s.reply
  have hlength : runActions [wr .plen (BitVec.ofNat 32 p.length)] { s with pass := padPass p, reply := some .okay } =
      some ({ s with pass := padPass p, plen := BitVec.ofNat 32 p.length, reply := some .okay }, [some .okay]) :=
    runActions_cons_of_next (transact_write_reg .plen _ _ _ rfl) rfl
  exact runScript_single hactions (runActions_append_of_some hload hlength)

/-- Settles O56: the four lines, each with the whole state it leaves. -/
theorem pseudoLinesLoadRegisters : Obligations.PseudoLinesLoadRegisters := by
  intro s x
  have hsame : ∀ t : State, SameRegisters t { t with reply := some .okay } := fun t =>
    sameRegisters_withReply .okay t.pending t
  exact ⟨⟨_, runScript_ldkey s x, hsame _⟩, ⟨_, runScript_ldblk s x, hsame _⟩,
    ⟨_, _, runScript_mvsk s, hsame _, bytesOfWords_wordOf s.sk⟩,
    fun text p hp hl => ⟨_, runScript_ldpass s hp hl, hsame _, toList_padPass hl⟩⟩

end Sys2Proof.Machine

/-! ## The key deriver (spec/40_key_deriver.md) -/

namespace Sys2Proof.Machine

/-- `derive` is defined up to 16 bytes (R101). -/
theorem derive_of_le (c : Profile) {p : Bytes} (h : p.length ≤ 16) :
    derive c p = some (keyFromWords (c.kdfWords p) p) := if_pos h

/-- `derive` is not defined above 16 bytes (R101). -/
theorem derive_of_gt (c : Profile) {p : Bytes} (h : p.length > 16) : derive c p = none := if_neg (Nat.not_le.2 h)

/-- A byte of the key: the drawn byte as a quotient, with the passphrase byte there is (R101). -/
theorem keyFromWords_byte (ws : DWord × DWord) (p : Bytes) (i : Fin 16) :
    (keyFromWords ws p)[i] =
      BitVec.ofNat 8 ((if i.val < 8 then ws.1 else ws.2).toNat / 256 ^ (i.val % 8)) ^^^ p.getD i.val 0 := by
  rw [← byteOfDWord_eq, List.getD_eq_getElem?_getD]
  exact getElem_keyFromWords ws p i.val i.isLt

/-- `PASS` has 16 bytes, so the operand of `DERIVE` has no more. -/
theorem length_passphrase_le (s : State) : (passphrase s).length ≤ 16 := by simp [passphrase]

/-- A byte of the passphrase operand, at an index of the register. -/
theorem passphrase_getD (s : State) (i : Fin 16) :
    (passphrase s).getD i.val 0 = if i.val < s.plen.toNat then s.pass[i] else 0 := by
  rw [List.getD_eq_getElem?_getD]
  exact passphrase_get s i.val i.isLt

/-- The operand is fixed by `PLEN` and the bytes of `PASS` below it. -/
theorem passphrase_congr {s t : State} (hlen : s.plen = t.plen)
    (h : ∀ i : Fin 16, i.val < s.plen.toNat → s.pass[i] = t.pass[i]) : passphrase s = passphrase t := by
  refine List.ext_getElem (by simp [passphrase, hlen]) fun i hi _ => ?_
  obtain ⟨hplen, h16⟩ : i < s.plen.toNat ∧ i < 16 := by simpa [passphrase] using hi
  simpa [passphrase] using h ⟨i, h16⟩ hplen

/-- `DERIVE` with a passphrase of at most 16 bytes writes `KEY` and nothing else (R102). -/
theorem exec_derive_of_le {s : State} (h : s.plen.toNat ≤ 16) :
    exec .derive s = .next { s with key := keyFromWords (Config.kdfWords (passphrase s)) (passphrase s) } := by
  rw [exec_eq_commandAt]
  exact congrArg Host.Outcome.next (deriveAt_of_le Config.profile s h)

/-- `DERIVE` with a longer one latches `KEYLEN` with the length and changes nothing else (R102). -/
theorem exec_derive_of_gt {s : State} (h : s.plen.toNat > 16) :
    exec .derive s = .next { s with status := { fault := true, cause := some .keylen }, finfo := s.plen } := by
  rw [exec_eq_commandAt]
  exact congrArg Host.Outcome.next (deriveAt_of_gt Config.profile s h)

/-- Settles O12: the function's two cases, then the command's, whose key bytes are the function's. -/
theorem deriveCutsKeyAndXorsPassphrase : Obligations.DeriveCutsKeyAndXorsPassphrase := by
  refine ⟨fun c p => ⟨derive_of_gt c, fun hp => ⟨_, derive_of_le c hp, keyFromWords_byte _ p⟩⟩,
    decode_encode .derive, fun s => ⟨fun h => ?_, exec_derive_of_gt⟩⟩
  refine ⟨_, exec_derive_of_le h, rfl, derive_of_le Config.profile (length_passphrase_le s), fun i => ?_⟩
  rw [← passphrase_getD]
  exact keyFromWords_byte _ (passphrase s) i

/-- Settles O13: the two states have one passphrase operand, and the key is a function of it alone. -/
theorem deriveSeesOnlyThePassphrase : Obligations.DeriveSeesOnlyThePassphrase := by
  intro s t hlen h16 hpass
  have hoperand : passphrase s = passphrase t := passphrase_congr hlen hpass
  refine ⟨_, _, exec_derive_of_le h16, exec_derive_of_le (hlen ▸ h16), ?_, rfl, rfl⟩
  rw [hoperand]

/-- Keys cut from the same drawn words differ exactly where the passphrases do. -/
theorem keyFromWords_byte_ne_iff (ws : DWord × DWord) (p q : Bytes) (i : Fin 16) :
    (keyFromWords ws p)[i] ≠ (keyFromWords ws q)[i] ↔ p.getD i.val 0 ≠ q.getD i.val 0 := by
  rw [keyFromWords_byte, keyFromWords_byte, ne_eq, BitVec.xor_right_inj]

/-- Passphrases of one length that differ at an index both have a byte there, so a default byte cannot hide it. -/
theorem getD_ne_of_getElem?_ne {p q : Bytes} {j : Nat} (hlen : p.length = q.length) (h : p[j]? ≠ q[j]?) :
    p.getD j 0 ≠ q.getD j 0 := by
  rcases Nat.lt_or_ge j p.length with hj | hj
  · have hq : j < q.length := hlen ▸ hj
    simpa [hj, hq] using h
  · exact absurd (by rw [List.getElem?_eq_none hj, List.getElem?_eq_none (hlen ▸ hj)]) h

/-- Settles O14: the key bytes differ where the passphrases' bytes do, and beyond the passphrase zero is xored in. -/
theorem keyByteFollowsPassphraseByte : Obligations.KeyByteFollowsPassphraseByte := by
  intro c p q j hp hlen hwords hsame hdiff
  refine ⟨_, _, derive_of_le c hp, derive_of_le c (hlen ▸ hp), fun i => ?_, fun i hi => ?_⟩
  · rw [← hwords, keyFromWords_byte_ne_iff]
    constructor
    · intro hne
      by_contra hij
      refine hne ?_
      rw [List.getD_eq_getElem?_getD, List.getD_eq_getElem?_getD, hsame i.val (Fin.val_ne_of_ne hij)]
    · rintro rfl
      exact getD_ne_of_getElem?_ne hlen hdiff
  · rw [keyFromWords_byte, List.getD_eq_default _ _ hi]
    exact BitVec.xor_zero

end Sys2Proof.Machine

/-! ## The permutation generator (spec/41_permutation.md) -/

namespace Sys2Proof.Machine

/-! ### The inverse of a vector (R113) -/

/-- The entries of a permutation and of its inverse, read in both directions. -/
theorem getElem_inverse_iff {p q : Perm} (hp : Perm.Valid p) (h : Perm.Inverse p q) (i j : Fin 8) :
    q[j] = i ↔ p[i] = j := by
  constructor
  · intro hq
    obtain ⟨m, rfl⟩ := valid_surjective hp j
    rw [← hq, h m]
  · rintro rfl
    exact h i

/-- An inverse undoes the vector from the other side too. -/
theorem inverse_symm {p q : Perm} (hp : Perm.Valid p) (h : Perm.Inverse p q) : Perm.Inverse q p := fun j =>
  (getElem_inverse_iff hp h q[j] j).1 rfl

/-- A vector that has an inverse repeats no entry. -/
theorem valid_of_inverse {p q : Perm} (h : Perm.Inverse p q) : Perm.Valid p := by
  refine (valid_iff_injective p).2 fun i j hij => ?_
  have hq : q[p[i]] = q[p[j]] := by simp only [hij]
  exact (h i).symm.trans (hq.trans (h j))

/-- A permutation has one inverse, the one `invert` gives. -/
theorem invert_eq_of_inverse {p q : Perm} (hp : Perm.Valid p) (h : Perm.Inverse p q) : invert p = q :=
  perm_eq_of_entries fun j => (getElem_inverse_iff hp (getElem_invert hp) q[j] j).2 (inverse_symm hp h j)

/-- Settles O26: `invert` gives an inverse, an inverse works from both sides, and there is one only. -/
theorem invertGivesTheInverse : Obligations.InvertGivesTheInverse := by
  refine ⟨invert_eq_of_inverse identity_valid (by decide), fun p hp => ?_⟩
  have hinv : Perm.Inverse p (invert p) := getElem_invert hp
  have hsymm : Perm.Inverse (invert p) p := inverse_symm hp hinv
  have hvalid : Perm.Valid (invert p) := valid_of_inverse hsymm
  exact ⟨hinv, hsymm, hvalid, invert_eq_of_inverse hvalid hsymm⟩

/-! ### The command (R114) -/

theorem exec_pgen (s : State) : exec .pgen s = .next (recordPerm (generate Config.profile s.key) s) :=
  exec_eq_commandAt .pgen s

/-- Settles O15: the vector is a shuffle, so a permutation, and `invert` gives its inverse. -/
theorem pgenWritesVectorAndInverse : Obligations.PgenWritesVectorAndInverse := by
  refine ⟨decode_encode .pgen, fun s => ⟨_, exec_pgen s, rfl, rfl, ?_⟩⟩
  have hvalid : Perm.Valid (shuffle (Config.permDraws s.key)) := shuffle_valid _
  exact getElem_inverse_iff hvalid (getElem_invert hvalid)

/-! ### The shuffle, step by step from any vector (R111)

A draw tuple is read back from the result from position 7 down (R117). The shuffle is written here as a recursion on the
position, so that this is one induction. -/

/-- The draws for the positions `n` down to 1. -/
def DrawsBelow : Nat → Type
  | 0 => Unit
  | n + 1 => Fin (n + 2) × DrawsBelow n

/-- The swaps of the positions `n` down to 1, on a vector. -/
def shuffleBelow : (n : Nat) → n < 8 → DrawsBelow n → Perm → Perm
  | 0, _, _, q => q
  | n + 1, hn, (d, ds), q => shuffleBelow n (Nat.lt_of_succ_lt hn) ds (swapEntries q ⟨n + 1, hn⟩ (d.castLE hn))

/-- The draws of one shuffle, as a tuple. -/
def drawsEquiv : Draws ≃ DrawsBelow 7 where
  toFun d := (d.d7, d.d6, d.d5, d.d4, d.d3, d.d2, d.d1, ())
  invFun := fun (d7, d6, d5, d4, d3, d2, d1, _) => { d7, d6, d5, d4, d3, d2, d1 }
  left_inv _ := rfl
  right_inv _ := rfl

theorem shuffle_eq_shuffleBelow (d : Draws) :
    shuffle d = shuffleBelow 7 (by decide) (drawsEquiv d) Perm.identity := rfl

/-- The two vectors have the same entries at the positions above `n`. -/
def AgreeAbove (n : Nat) (p q : Perm) : Prop := ∀ m : Fin 8, n < m.val → p[m] = q[m]

/-- The last position is fixed by the others. -/
theorem eq_of_agreeAbove_zero {p q : Perm} (hp : Perm.Valid p) (hq : Perm.Valid q) (h : AgreeAbove 0 p q) : p = q := by
  obtain ⟨j, hj⟩ := valid_surjective hq p[(0 : Fin 8)]
  have hzero : j = 0 := by
    by_contra hne
    have hsame : p[j] = p[(0 : Fin 8)] := (h j (Fin.pos_iff_ne_zero.2 hne)).trans hj
    exact hne ((valid_iff_injective p).1 hp j 0 hsame)
  refine perm_eq_of_entries fun m => ?_
  rcases Nat.eq_zero_or_pos m.val with hm | hm
  · obtain rfl : m = 0 := Fin.ext hm
    rw [← hj, hzero]
  · exact h m hm

/-- Position `n + 1` after its swap holds the drawn entry. -/
theorem getElem_swapEntries_left (q : Perm) (i d : Fin 8) : (swapEntries q i d)[i] = q[d] := by
  rw [getElem_swapEntries]
  split
  next h => simp only [h]
  next => simp

/-- A swap leaves the positions above both of its own. -/
theorem getElem_swapEntries_of_lt (q : Perm) {i d m : Fin 8} (hd : d ≤ i) (hm : i < m) :
    (swapEntries q i d)[m] = q[m] := by
  rw [getElem_swapEntries, if_neg (hd.trans_lt hm).ne', if_neg hm.ne']

/-- The swaps of the positions up to `n` leave the ones above. -/
theorem shuffleBelow_agreeAbove (n : Nat) (hn : n < 8) (ds : DrawsBelow n) (q : Perm) :
    AgreeAbove n (shuffleBelow n hn ds q) q := by
  induction n generalizing q with
  | zero => exact fun _ _ => rfl
  | succ n ih =>
    obtain ⟨d, ds⟩ := ds
    intro m hm
    have hlater := ih (Nat.lt_of_succ_lt hn) ds (swapEntries q ⟨n + 1, hn⟩ (d.castLE hn)) m (Nat.lt_of_succ_lt hm)
    have hd : d.castLE hn ≤ ⟨n + 1, hn⟩ := Nat.le_of_lt_succ d.isLt
    exact hlater.trans (getElem_swapEntries_of_lt q hd hm)

/-- The draw for position `n + 1` that brings the entry wanted there. -/
theorem exists_draw {n : Nat} (hn : n + 1 < 8) {p q : Perm} (hp : Perm.Valid p) (hq : Perm.Valid q)
    (h : AgreeAbove (n + 1) q p) : ∃ d : Fin (n + 2), q[d.castLE hn] = p[(⟨n + 1, hn⟩ : Fin 8)] := by
  obtain ⟨j, hj⟩ := valid_surjective hq p[(⟨n + 1, hn⟩ : Fin 8)]
  have hle : j.val < n + 2 := by
    by_contra hgt
    have hsame : p[j] = p[(⟨n + 1, hn⟩ : Fin 8)] := (h j (by omega)).symm.trans hj
    have hval : j.val = n + 1 := congrArg Fin.val ((valid_iff_injective p).1 hp j _ hsame)
    omega
  exact ⟨⟨j.val, hle⟩, hj⟩

/-- Once the drawn entry is the wanted one, the swap settles position `n + 1`. -/
theorem agreeAbove_swapEntries {n : Nat} (hn : n + 1 < 8) {p q : Perm} (h : AgreeAbove (n + 1) q p)
    {d : Fin (n + 2)} (hd : q[d.castLE hn] = p[(⟨n + 1, hn⟩ : Fin 8)]) :
    AgreeAbove n (swapEntries q ⟨n + 1, hn⟩ (d.castLE hn)) p := by
  intro m hm
  rcases Nat.lt_or_eq_of_le (Nat.succ_le_of_lt hm) with hlt | heq
  · exact (getElem_swapEntries_of_lt q (Nat.le_of_lt_succ d.isLt) hlt).trans (h m hlt)
  · obtain rfl : ⟨n + 1, hn⟩ = m := Fin.ext heq
    exact (getElem_swapEntries_left q _ _).trans hd

/-- The draws are read back from the result: from a permutation that has the wanted entries above `n`, exactly one tuple for
the positions up to `n` leads to the wanted permutation (R117). -/
theorem existsUnique_shuffleBelow (n : Nat) (hn : n < 8) {p q : Perm} (hp : Perm.Valid p) (hq : Perm.Valid q)
    (h : AgreeAbove n q p) : ∃! ds, shuffleBelow n hn ds q = p := by
  induction n generalizing q with
  | zero => exact ⟨(), eq_of_agreeAbove_zero hq hp h, fun _ _ => rfl⟩
  | succ n ih =>
    obtain ⟨d, hd⟩ := exists_draw hn hp hq h
    obtain ⟨ds, hds, hunique⟩ := ih (Nat.lt_of_succ_lt hn) (swapEntries_valid hq _ _) (agreeAbove_swapEntries hn h hd)
    refine ⟨(d, ds), hds, fun ⟨e, es⟩ hes => ?_⟩
    have hentry : p[(⟨n + 1, hn⟩ : Fin 8)] = q[e.castLE hn] := by
      have hlater := shuffleBelow_agreeAbove n (Nat.lt_of_succ_lt hn) es (swapEntries q ⟨n + 1, hn⟩ (e.castLE hn))
        ⟨n + 1, hn⟩ (Nat.lt_succ_self n)
      exact (congrArg (fun x : Perm => x[(⟨n + 1, hn⟩ : Fin 8)]) hes).symm.trans
        (hlater.trans (getElem_swapEntries_left q _ _))
    obtain rfl : d = e := Fin.castLE_injective hn ((valid_iff_injective q).1 hq _ _ (hd.trans hentry))
    rw [hunique es hes]

/-- Every permutation is the shuffle of exactly one draw tuple (R117). -/
theorem existsUnique_shuffle {p : Perm} (hp : Perm.Valid p) : ∃! d, shuffle d = p := by
  have htuple := existsUnique_shuffleBelow 7 (by decide) hp identity_valid fun m hm => absurd m.isLt (Nat.not_lt.2 hm)
  exact (drawsEquiv.existsUnique_congr_left).2 htuple

/-- The hardware whose permutation generator always draws `d`, for every key. -/
def constantDraws (d : Draws) : Profile := { Config.profile with permDraws := fun _ => d }

theorem generate_constantDraws (d : Draws) (k : B16) : generate (constantDraws d) k = shuffle d := rfl

/-- Settles O25: each permutation is the shuffle of one draw tuple and no other. -/
theorem shuffleGivesEveryPermutationOnce : Obligations.ShuffleGivesEveryPermutationOnce := by
  have hinj : ∀ d e : Draws, shuffle d = shuffle e → d = e := fun d e h =>
    (existsUnique_shuffle (shuffle_valid e)).unique h rfl
  have hsurj : ∀ p : Perm, Perm.Valid p → ∃ d, shuffle d = p := fun _ hp => (existsUnique_shuffle hp).exists
  have hident : shuffle { d7 := 7, d6 := 6, d5 := 5, d4 := 4, d3 := 3, d2 := 2, d1 := 1 } = Perm.identity := by decide
  refine ⟨shuffle_valid, hinj, hsurj, fun d => ⟨fun h => hinj _ _ (h.trans hident.symm), fun h => h ▸ hident⟩, ?_⟩
  intro p k hp
  obtain ⟨d, hd⟩ := hsurj p hp
  exact ⟨constantDraws d, hd⟩

end Sys2Proof.Machine

/-! ## The bit reorderings and the round (spec/42_round.md) -/

namespace Sys2Proof.Machine

/-! ### `bitperm` (R120) -/

theorem bitperm_zero (p : Perm) : bitperm p 0x00 = 0x00 :=
  byte_eq_of_bits fun i => (getLsbD_bitperm p _ i).trans (BitVec.getLsbD_zero.trans BitVec.getLsbD_zero.symm)

theorem getLsbD_ff : ∀ i : Fin 8, (0xFF : Byte).getLsbD i.val = true := by decide

theorem bitperm_ff (p : Perm) : bitperm p 0xFF = 0xFF :=
  byte_eq_of_bits fun i => by rw [getLsbD_bitperm, getLsbD_ff, getLsbD_ff]

theorem bitperm_xor (p : Perm) (a b : Byte) : bitperm p (a ^^^ b) = bitperm p a ^^^ bitperm p b :=
  byte_eq_of_bits fun i => by simp only [getLsbD_bitperm, BitVec.getLsbD_xor]

theorem getElem_identity : ∀ i : Fin 8, Perm.identity[i] = i := by decide

theorem bitperm_identity (b : Byte) : bitperm Perm.identity b = b :=
  byte_eq_of_bits fun i => by rw [getLsbD_bitperm, getElem_identity]

theorem onesIn_eq_card (b : Byte) : onesIn b = (Finset.univ.filter fun i : Fin 8 => b.getLsbD i.val).card := by
  have hrange : onesIn b = ((Finset.range 8).filter fun i => b.getLsbD i).card := by
    simp [onesIn, Finset.card, Finset.range, Multiset.range]
  rw [hrange, ← Nat.Iio_eq_range, ← Fin.map_valEmbedding_univ, Finset.filter_map, Finset.card_map]
  rfl

/-- A permutation is a bijection from the one bits of the output to those of the input. -/
theorem onesIn_bitperm {p : Perm} (hp : Perm.Valid p) (b : Byte) : onesIn (bitperm p b) = onesIn b := by
  have hbij : Function.Bijective fun i : Fin 8 => p[i] := ⟨(valid_iff_injective p).1 hp, valid_surjective hp⟩
  rw [onesIn_eq_card, onesIn_eq_card]
  exact Finset.card_bijective _ hbij fun i => by simp only [Finset.mem_filter_univ, getLsbD_bitperm]

/-- Settles O27: everything is read off the bit the output takes. -/
theorem bitpermSelectsBits : Obligations.BitpermSelectsBits :=
  ⟨getLsbD_bitperm, fun _ b hp => onesIn_bitperm hp b, fun p _ => ⟨bitperm_zero p, bitperm_ff p⟩, bitperm_identity⟩

/-! ### `bitunperm` (R121) -/

/-- One turn of the loop of `bitunperm` puts input bit `i` at position `k`. -/
theorem getLsbD_placedBit (b : Byte) (i k m : Fin 8) :
    (((b >>> i.val) &&& 1#8) <<< k.val).getLsbD m.val = (decide (k = m) && b.getLsbD i.val) := by
  rw [BitVec.getLsbD_shiftLeft, BitVec.getLsbD_and, BitVec.getLsbD_ushiftRight, BitVec.getLsbD_one]
  rcases lt_trichotomy m k with h | rfl | h
  · simp [h, h.ne']
  · simp
  · have hne : ¬ m.val - k.val = 0 := by omega
    simp [hne, h.ne]

/-- The loop of `bitunperm` over any positions: an output bit is 1 when it was, or when a 1 is put there. -/
theorem getLsbD_foldl_placedBits (p : Perm) (b : Byte) (l : List (Fin 8)) (o : Byte) (m : Fin 8) :
    (l.foldl (fun o i => o ||| (((b >>> i.val) &&& 1#8) <<< p[i].val)) o).getLsbD m.val =
      (o.getLsbD m.val || l.any fun i => decide (p[i] = m) && b.getLsbD i.val) := by
  induction l generalizing o with
  | nil => simp
  | cons i l ih => rw [List.foldl_cons, ih, BitVec.getLsbD_or, getLsbD_placedBit, List.any_cons, Bool.or_assoc]

theorem entry_eq_entry_iff {p : Perm} (hp : Perm.Valid p) (i j : Fin 8) : p[i] = p[j] ↔ i = j :=
  ⟨(valid_iff_injective p).1 hp i j, fun h => by rw [h]⟩

theorem mem_indices8 : ∀ i : Fin 8, i ∈ indices8 := by decide

/-- Bit `P[i]` of `bitunperm(P, b)` is bit `i` of `b`: no other input bit is put there. -/
theorem getLsbD_bitunperm {p : Perm} (hp : Perm.Valid p) (b : Byte) (i : Fin 8) :
    (bitunperm p b).getLsbD p[i].val = b.getLsbD i.val := by
  rw [bitunperm, getLsbD_foldl_placedBits, Bool.eq_iff_iff]
  simp only [BitVec.getLsbD_zero, Bool.false_or, List.any_eq_true, Bool.and_eq_true, decide_eq_true_eq,
    entry_eq_entry_iff hp]
  exact ⟨fun ⟨j, _, hj, hb⟩ => hj ▸ hb, fun hb => ⟨i, mem_indices8 i, rfl, hb⟩⟩

/-- Two bytes are equal when they agree at the positions a permutation lists. -/
theorem byte_eq_of_listed_bits {p : Perm} (hp : Perm.Valid p) {a b : Byte}
    (h : ∀ i : Fin 8, a.getLsbD p[i].val = b.getLsbD p[i].val) : a = b :=
  byte_eq_of_bits fun m => by
    obtain ⟨i, rfl⟩ := valid_surjective hp m
    exact h i

theorem bitunperm_eq_bitperm_invert {p : Perm} (hp : Perm.Valid p) (b : Byte) : bitunperm p b = bitperm (invert p) b :=
  byte_eq_of_listed_bits hp fun i => by rw [getLsbD_bitunperm hp, getLsbD_bitperm, getElem_invert hp]

theorem bitunperm_bitperm {p : Perm} (hp : Perm.Valid p) (b : Byte) : bitunperm p (bitperm p b) = b :=
  byte_eq_of_listed_bits hp fun i => by rw [getLsbD_bitunperm hp, getLsbD_bitperm]

theorem bitperm_bitunperm {p : Perm} (hp : Perm.Valid p) (b : Byte) : bitperm p (bitunperm p b) = b :=
  byte_eq_of_bits fun i => by rw [getLsbD_bitperm, getLsbD_bitunperm hp]

/-- Settles O28: `bitunperm` puts each bit back to where `bitperm` took it from. -/
theorem bitunpermUndoesBitperm : Obligations.BitunpermUndoesBitperm := fun _ b hp =>
  ⟨getLsbD_bitunperm hp b, bitunperm_eq_bitperm_invert hp b, bitunperm_bitperm hp b, bitperm_bitunperm hp b⟩

/-! ### One lane of a round (R122, R124) -/

theorem laneD_laneE {p : Perm} (hp : Perm.Valid p) (k b : Byte) : laneD p k (laneE p k b) = b := by
  rw [laneD, laneE, xor_cancel_right, bitunperm_bitperm hp, rotr3_rotl3, xor_cancel_right]

theorem laneE_laneD {p : Perm} (hp : Perm.Valid p) (k b : Byte) : laneE p k (laneD p k b) = b := by
  rw [laneD, laneE, xor_cancel_right, rotl3_rotr3, bitperm_bitunperm hp, xor_cancel_right]

/-- A byte equal to its key byte is unchanged (R126). -/
theorem laneE_of_eq (p : Perm) {k b : Byte} (h : b = k) : laneE p k b = k := by
  have hrot : rotl3 0x00 = 0x00 := by decide
  rw [laneE, h, LawfulXor.xor_self, hrot, bitperm_zero, zero_xor]

/-- A byte complementary to its key byte is unchanged (R126). -/
theorem laneE_of_compl (p : Perm) {k b : Byte} (h : b = k ^^^ 0xFF) : laneE p k b = k ^^^ 0xFF := by
  have hrot : rotl3 0xFF = 0xFF := by decide
  rw [laneE, h, xor_xor_cancel_comm, hrot, bitperm_ff, BitVec.xor_comm]

/-- What the round leaves unchanged its inverse does too (R127). -/
theorem laneD_of_laneE_eq {p : Perm} (hp : Perm.Valid p) {k b : Byte} (h : laneE p k b = b) : laneD p k b = b := by
  rw [← h, laneD_laneE hp, h]

theorem laneD_of_eq {p : Perm} (hp : Perm.Valid p) {k b : Byte} (h : b = k) : laneD p k b = k :=
  (laneD_of_laneE_eq hp ((laneE_of_eq p h).trans h.symm)).trans h

theorem laneD_of_compl {p : Perm} (hp : Perm.Valid p) {k b : Byte} (h : b = k ^^^ 0xFF) : laneD p k b = k ^^^ 0xFF :=
  (laneD_of_laneE_eq hp ((laneE_of_compl p h).trans h.symm)).trans h

/-! ### The round and its inverse (R128) -/

theorem generate_valid (c : Profile) (k : B16) : Perm.Valid (generate c k) := shuffle_valid (c.permDraws k)

theorem roundD_roundE {p : Perm} (hp : Perm.Valid p) (k b : B16) : roundD p k (roundE p k b) = b :=
  b16_eq_of_bytes fun i => by simp [laneD_laneE hp]

theorem roundE_roundD {p : Perm} (hp : Perm.Valid p) (k b : B16) : roundE p k (roundD p k b) = b :=
  b16_eq_of_bytes fun i => by simp [laneE_laneD hp]

theorem roundDecrypt_roundEncrypt (c : Profile) (k b : B16) : roundDecrypt c k (roundEncrypt c k b) = b :=
  roundD_roundE (generate_valid c k) k b

theorem roundEncrypt_roundDecrypt (c : Profile) (k b : B16) : roundEncrypt c k (roundDecrypt c k b) = b :=
  roundE_roundD (generate_valid c k) k b

/-! ### The commands (R126 to R128) -/

theorem exec_renc (s : State) : exec .renc s =
    .next (recordRound (roundEncrypt Config.profile s.key s.blk) s.key (generate Config.profile s.key) s) :=
  exec_eq_commandAt .renc s

theorem exec_rdec (s : State) : exec .rdec s =
    .next (recordRound (roundDecrypt Config.profile s.key s.blk) s.key (generate Config.profile s.key) s) :=
  exec_eq_commandAt .rdec s

theorem exec_enc_one (s : State) : exec (.enc 1) s = exec .renc s :=
  (exec_eq_commandAt (.enc 1) s).trans (congrArg _ (encAt_of_pos Config.profile 1 s (by decide)))

theorem exec_dec_one (s : State) : exec (.dec 1) s = exec .rdec s :=
  (exec_eq_commandAt (.dec 1) s).trans (congrArg _ (decAt_of_pos Config.profile 1 s (by decide)))

/-- `RENC` and then `RDEC`: the key is kept between them. -/
theorem exec_rdec_after_renc (s : State) :
    ∃ t u, exec .renc s = .next t ∧ exec .rdec t = .next u ∧ u.blk = s.blk :=
  ⟨_, _, exec_renc s, exec_rdec _, roundDecrypt_roundEncrypt Config.profile s.key s.blk⟩

/-- `RDEC` and then `RENC`. -/
theorem exec_renc_after_rdec (s : State) :
    ∃ t u, exec .rdec s = .next t ∧ exec .renc t = .next u ∧ u.blk = s.blk :=
  ⟨_, _, exec_rdec s, exec_renc _, roundEncrypt_roundDecrypt Config.profile s.key s.blk⟩

/-- Settles O29: each lane cancels, with the one vector both directions generate from the kept key. -/
theorem roundAndInverseCancel : Obligations.RoundAndInverseCancel :=
  ⟨fun _ k b hp => ⟨roundD_roundE hp k b, roundE_roundD hp k b⟩, roundDecrypt_roundEncrypt,
    fun s => ⟨exec_rdec_after_renc s, exec_renc_after_rdec s⟩⟩

/-- Settles O16: the results recorded are those of one round, and a lane has its two fixed points. -/
theorem rencRoundsTheBlock : Obligations.RencRoundsTheBlock := by
  refine ⟨decode_encode .renc, fun s => ⟨exec_enc_one s, _, exec_renc s, rfl, rfl, rfl, rfl, fun i => ?_⟩⟩
  have hlane : (roundEncrypt Config.profile s.key s.blk)[i] = laneE (generate Config.profile s.key) s.key[i] s.blk[i] :=
    getElem_roundE ..
  exact ⟨hlane, fun h => hlane.trans (laneE_of_eq _ h), fun h => hlane.trans (laneE_of_compl _ h)⟩

/-- Settles O17: the results recorded are those of one inverse round, which shares the fixed points of the round. -/
theorem rdecUnroundsTheBlock : Obligations.RdecUnroundsTheBlock := by
  refine ⟨decode_encode .rdec, fun s => ⟨exec_dec_one s, _, exec_rdec s, rfl, rfl, rfl, rfl, exec_rdec_after_renc s,
    ⟨_, exec_renc _, roundEncrypt_roundDecrypt Config.profile s.key s.blk⟩, fun i => ?_⟩⟩
  have hlane : (roundDecrypt Config.profile s.key s.blk)[i] = laneD (generate Config.profile s.key) s.key[i] s.blk[i] :=
    getElem_roundD ..
  have hvalid : Perm.Valid (generate Config.profile s.key) := generate_valid _ _
  exact ⟨hlane, fun h => hlane.trans (laneD_of_eq hvalid h), fun h => hlane.trans (laneD_of_compl hvalid h)⟩

/-! ### What a lane depends on (R129) -/

/-- Another byte in one lane of the block changes that lane of the output alone. -/
theorem roundE_set (p : Perm) (k b : B16) (i : Fin 16) (x : Byte) :
    roundE p k (b.set i.val x) = (roundE p k b).set i.val (laneE p k[i] x) :=
  b16_eq_of_bytes fun l => by
    rw [Fin.getElem_fin, Fin.getElem_fin, getElem_roundE, Vector.getElem_set, Vector.getElem_set, getElem_roundE]
    split
    next h => simp only [Fin.getElem_fin, h]
    next => rfl

theorem rotl3_xor (a b : Byte) : rotl3 (a ^^^ b) = rotl3 a ^^^ rotl3 b := by
  refine byte_eq_of_bits fun i => ?_
  have hi : ((i - 3).val + 3) % 8 = i.val := by revert i; decide
  rw [← hi, BitVec.getLsbD_xor, getLsbD_rotl3, getLsbD_rotl3, getLsbD_rotl3, BitVec.getLsbD_xor]

theorem xor_right_comm (a b c : Byte) : a ^^^ b ^^^ c = a ^^^ c ^^^ b := by
  rw [BitVec.xor_assoc, BitVec.xor_comm b, BitVec.xor_assoc]

/-- The two xors with the key byte cancel in the difference of two outputs of a lane. -/
theorem laneE_xor (p : Perm) (k b d : Byte) : laneE p k (b ^^^ d) = laneE p k b ^^^ bitperm p (rotl3 d) := by
  rw [laneE, laneE, xor_right_comm, rotl3_xor, bitperm_xor, xor_right_comm]

theorem getLsbD_oneBit (i j : Fin 8) : (1#8 <<< j.val).getLsbD i.val = decide (i = j) := by
  revert i j; decide

theorem rotl3_oneBit : ∀ j : Fin 8, rotl3 (1#8 <<< j.val) = 1#8 <<< (j + 3).val := by decide

theorem bitperm_oneBit {p : Perm} (hp : Perm.Valid p) (m : Fin 8) :
    bitperm p (1#8 <<< p[m].val) = 1#8 <<< m.val :=
  byte_eq_of_bits fun i => by
    rw [getLsbD_bitperm, getLsbD_oneBit, getLsbD_oneBit, decide_eq_decide]
    exact entry_eq_entry_iff hp i m

/-- Rotation and reordering move a bit and neither create nor merge bits. -/
theorem exists_bitperm_rotl3_oneBit {p : Perm} (hp : Perm.Valid p) (j : Fin 8) :
    ∃ m : Fin 8, bitperm p (rotl3 (1#8 <<< j.val)) = 1#8 <<< m.val := by
  obtain ⟨m, hm⟩ := valid_surjective hp (j + 3)
  exact ⟨m, by rw [rotl3_oneBit, ← hm, bitperm_oneBit hp]⟩

/-- The hardware whose permutation generator draws the identity for a key with bit 0 of byte 0 clear, and all zeros for any
other key. -/
def drawsByFirstBit : Profile :=
  { Config.profile with
    permDraws := fun k =>
      if k[0].getLsbD 0 then default else { d7 := 7, d6 := 6, d5 := 5, d4 := 4, d3 := 3, d2 := 2, d1 := 1 } }

/-- One key bit changes every lane: under the zero key and the identity vector every lane is 0x08; with bit 0 of byte 0 set
lane 0 is 0x01 and the new vector moves the one bit of every other lane elsewhere. -/
theorem keyBit_changes_every_lane :
    let k : B16 := B16.zeros
    let b : B16 := Vector.replicate 16 0x01
    ∀ l : Fin 16, (roundEncrypt drawsByFirstBit (k.set 0 (k[0] ^^^ (1#8 <<< 0))) b)[l] ≠
      (roundEncrypt drawsByFirstBit k b)[l] := by
  decide

/-- Settles O30: the lane formula, the one bit that a lane moves, and a generator that reads the changed key bit. -/
theorem lanesDoNotMix : Obligations.LanesDoNotMix := by
  refine ⟨fun p k b i => getElem_roundE .., fun p k k' b b' i hk hb => ?_, fun p k b i j hp => ?_, ?_⟩
  · exact (getElem_roundE ..).trans ((congrArg₂ (laneE p) hk hb).trans (getElem_roundE ..).symm)
  · obtain ⟨m, hm⟩ := exists_bitperm_rotl3_oneBit hp j
    have hlane : (roundE p k b)[i] = laneE p k[i] b[i] := getElem_roundE ..
    exact ⟨m, by rw [roundE_set, laneE_xor, hm, hlane]⟩
  · exact ⟨drawsByFirstBit, B16.zeros, Vector.replicate 16 0x01, 0, 0, keyBit_changes_every_lane⟩

end Sys2Proof.Machine

/-! ## The key schedule (spec/43_key_schedule.md) -/

namespace Sys2Proof.Machine

/-! ### One byte: the rotations of R15 and R16 -/

theorem rotl3_eq_rotateLeft (b : Byte) : rotl3 b = b.rotateLeft 3 := rfl

theorem rotr3_eq_rotateRight (b : Byte) : rotr3 b = b.rotateRight 3 := rfl

theorem rotateLeft_zero : ∀ b : Byte, b.rotateLeft 0 = b := by decide

/-- Bit `j` of a byte rotated left by `m` stands at bit `(j + m) mod 8`, for every `m`. -/
theorem getLsbD_rotateLeft_byte (b : Byte) (m : Nat) (j : Fin 8) :
    (b.rotateLeft m).getLsbD ((j.val + m) % 8) = b.getLsbD j.val := by
  rw [BitVec.getLsbD_rotateLeft, Bool.cond_decide]
  split
  next hwrap =>
    have hsource : 8 - m % 8 + (j.val + m) % 8 = j.val := by omega
    rw [hsource]
  next =>
    have hsource : (j.val + m) % 8 - m % 8 = j.val := by omega
    rw [hsource, decide_eq_true (Nat.mod_lt _ (by decide)), Bool.true_and]

theorem rotateLeft_rotateLeft (b : Byte) (m n : Nat) : (b.rotateLeft m).rotateLeft n = b.rotateLeft (m + n) := by
  refine byte_eq_of_bits fun i => ?_
  obtain ⟨j, hj⟩ : ∃ j : Fin 8, (j.val + (m + n)) % 8 = i.val :=
    ⟨⟨(i.val + 8 - (m + n) % 8) % 8, Nat.mod_lt _ (by decide)⟩, by simp only; omega⟩
  have hmid : ((j.val + m) % 8 + n) % 8 = i.val := by omega
  calc ((b.rotateLeft m).rotateLeft n).getLsbD i.val = (b.rotateLeft m).getLsbD ((j.val + m) % 8) := by
        rw [← hmid]
        exact getLsbD_rotateLeft_byte (b.rotateLeft m) n ⟨(j.val + m) % 8, Nat.mod_lt _ (by decide)⟩
    _ = b.getLsbD j.val := getLsbD_rotateLeft_byte b m j
    _ = (b.rotateLeft (m + n)).getLsbD i.val := by rw [← hj, getLsbD_rotateLeft_byte]

/-- One more rotation by 3 in the closed form of R138. -/
theorem rotl3_rotateLeft_three_mul (b : Byte) (n : Nat) : rotl3 (b.rotateLeft (3 * n)) = b.rotateLeft (3 * (n + 1)) :=
  rotateLeft_rotateLeft b (3 * n) 3

/-- A byte whose bits are all alike is its own rotation (R138). -/
theorem rotl3_of_uniform {b : Byte} (h : b = 0x00 ∨ b = 0xFF) : rotl3 b = b := by
  rcases h with rfl | rfl <;> decide

/-! ### One step of the schedule (R135, R136) -/

theorem nextRoundKey_byte (k : B16) (i : Fin 16) : (nextRoundKey k)[i] = rotl3 k[i] := getElem_nextRoundKey ..

theorem previousRoundKey_byte (k : B16) (i : Fin 16) : (previousRoundKey k)[i] = rotr3 k[i] := getElem_previousRoundKey ..

theorem previousRoundKey_nextRoundKey (k : B16) : previousRoundKey (nextRoundKey k) = k :=
  b16_eq_of_bytes fun i => by rw [previousRoundKey_byte, nextRoundKey_byte, rotr3_rotl3]

theorem nextRoundKey_previousRoundKey (k : B16) : nextRoundKey (previousRoundKey k) = k :=
  b16_eq_of_bytes fun i => by rw [nextRoundKey_byte, previousRoundKey_byte, rotl3_rotr3]

theorem nextRoundKey_of_uniform {k : B16} (h : ∀ i : Fin 16, k[i] = 0x00 ∨ k[i] = 0xFF) : nextRoundKey k = k :=
  b16_eq_of_bytes fun i => by rw [nextRoundKey_byte, rotl3_of_uniform (h i)]

/-- What the step forward leaves unchanged the step backward does too. -/
theorem previousRoundKey_of_uniform {k : B16} (h : ∀ i : Fin 16, k[i] = 0x00 ∨ k[i] = 0xFF) : previousRoundKey k = k :=
  (congrArg previousRoundKey (nextRoundKey_of_uniform h)).symm.trans (previousRoundKey_nextRoundKey k)

/-! ### Any number of steps (R137, R138) -/

theorem keyForward_eq_iterate (k : B16) (n : Nat) : keyForward k n = nextRoundKey^[n] k := by
  induction n with
  | zero => rfl
  | succ n ih => rw [keyForward, ih, Function.iterate_succ_apply']

theorem keyBackward_eq_iterate (k : B16) (n : Nat) : keyBackward k n = previousRoundKey^[n] k := by
  induction n with
  | zero => rfl
  | succ n ih => rw [keyBackward, ih, Function.iterate_succ_apply']

/-- The first step of the walk, where `keyForward` recurses on the last. -/
theorem keyForward_nextRoundKey (k : B16) (n : Nat) : keyForward (nextRoundKey k) n = keyForward k (n + 1) := by
  rw [keyForward_eq_iterate, keyForward_eq_iterate, Function.iterate_succ_apply]

theorem keyBackward_keyForward (k : B16) (n : Nat) : keyBackward (keyForward k n) n = k := by
  rw [keyForward_eq_iterate, keyBackward_eq_iterate]
  exact Function.LeftInverse.iterate previousRoundKey_nextRoundKey n k

theorem keyForward_byte (k : B16) (n : Nat) (i : Fin 16) : (keyForward k n)[i] = k[i].rotateLeft (3 * n) := by
  induction n with
  | zero => exact (rotateLeft_zero k[i]).symm
  | succ n ih => rw [keyForward, nextRoundKey_byte, ih, rotl3_rotateLeft_three_mul]

theorem keyForward_eq_ofFn (k : B16) (n : Nat) :
    keyForward k n = Vector.ofFn fun i : Fin 16 => k[i].rotateLeft (3 * n % 8) :=
  Vector.ext fun i hi => by
    rw [Vector.getElem_ofFn, BitVec.rotateLeft_mod_eq_rotateLeft]
    exact keyForward_byte k n ⟨i, hi⟩

theorem keyForward_add_eight (k : B16) (n : Nat) : keyForward k (n + 8) = keyForward k n := by
  have hperiod : 3 * (n + 8) % 8 = 3 * n % 8 := by omega
  rw [keyForward_eq_ofFn, hperiod, keyForward_eq_ofFn]

theorem keyForward_eight (k : B16) : keyForward k 8 = k := keyForward_add_eight k 0

theorem keyBackward_eight (k : B16) : keyBackward k 8 = k := by
  calc keyBackward k 8 = keyBackward (keyForward k 8) 8 := by rw [keyForward_eight]
    _ = k := keyBackward_keyForward k 8

/-- The eighth step closes the circle, so the seventh stands one step before the start. -/
theorem keyForward_seven (k : B16) : keyForward k 7 = previousRoundKey k := by
  have hclose : nextRoundKey (keyForward k 7) = k := keyForward_eight k
  rw [← congrArg previousRoundKey hclose, previousRoundKey_nextRoundKey]

theorem roundKeyFor_add_eight (k : B16) {r : Nat} (hr : 1 ≤ r) : roundKeyFor k (r + 8) = roundKeyFor k r := by
  cases r with
  | zero => contradiction
  | succ n => exact congrArg some (keyForward_add_eight k n)

/-! ### The commands (R139, R140) -/

theorem exec_knext (s : State) : exec .knext s = .next (withKey (nextRoundKey s.key) s) := exec_eq_commandAt .knext s

theorem exec_kprev (s : State) : exec .kprev s = .next (withKey (previousRoundKey s.key) s) := exec_eq_commandAt .kprev s

theorem withKey_self (s : State) : withKey s.key s = s := rfl

theorem withKey_withKey (j k : B16) (s : State) : withKey k (withKey j s) = withKey k s := rfl

theorem exec_kprev_after_knext (s : State) : exec .kprev (withKey (nextRoundKey s.key) s) = .next s := by
  rw [exec_kprev, withKey_key, previousRoundKey_nextRoundKey, withKey_withKey, withKey_self]

theorem exec_knext_after_kprev (s : State) : exec .knext (withKey (previousRoundKey s.key) s) = .next s := by
  rw [exec_knext, withKey_key, nextRoundKey_previousRoundKey, withKey_withKey, withKey_self]

theorem execTimes_succ_of_next (n : Nat) {i : Instr} {s t : State} (h : exec i s = .next t) :
    execTimes i (n + 1) s = execTimes i n t := by
  simp only [execTimes, h]

/-- `KNEXT` issued `n` times walks `KEY` `n` steps along the schedule and changes nothing else. -/
theorem execTimes_knext (n : Nat) (s : State) : execTimes .knext n s = some (withKey (keyForward s.key n) s) := by
  induction n generalizing s with
  | zero => rfl
  | succ n ih =>
    rw [execTimes_succ_of_next n (exec_knext s), ih, withKey_key, keyForward_nextRoundKey, withKey_withKey]

/-! ### The obligations -/

/-- Settles O31: the two rotations of a byte cancel, so the steps do, and the commands with them. -/
theorem scheduleStepsCancel : Obligations.ScheduleStepsCancel :=
  ⟨fun k i => ⟨(previousRoundKey_byte k i).trans (rotr3_eq_rotateRight _),
      (nextRoundKey_byte k i).trans (rotl3_eq_rotateLeft _)⟩,
    fun k => ⟨previousRoundKey_nextRoundKey k, nextRoundKey_previousRoundKey k⟩,
    fun s => ⟨⟨_, exec_knext s, exec_kprev_after_knext s⟩, _, exec_kprev s, exec_knext_after_kprev s⟩⟩

/-- Settles O32: from the closed form of a key byte, whose rotation amount depends on the round modulo 8. -/
theorem schedulePeriodIsEight : Obligations.SchedulePeriodIsEight := by
  refine ⟨fun k n => congrArg some (keyForward_eq_ofFn k n), fun k r hr => roundKeyFor_add_eight k hr,
    fun k => ⟨keyForward_eight k, keyBackward_eight k, keyForward_seven k⟩, fun k h => nextRoundKey_of_uniform h,
    fun k i => ?_⟩
  rw [nextRoundKey_byte]
  exact ⟨fun h => by rw [h]; decide, fun h => by rw [h]; decide⟩

/-- Settles O33: `R - 1` steps along the schedule give the key of round `R` by definition (R137). -/
theorem knextReachesTheRoundKey : Obligations.KnextReachesTheRoundKey := by
  intro s r hr
  refine ⟨_, execTimes_knext (r - 1) s, ?_, rfl⟩
  cases r with
  | zero => contradiction
  | succ n => rfl

/-- Settles O18: one step forward on `KEY`, and eight of them close the circle. -/
theorem knextRotatesKeyBytesLeft : Obligations.KnextRotatesKeyBytesLeft := by
  refine ⟨decode_encode .knext, fun s => ⟨_, exec_knext s, rfl, rfl, fun i j => ?_, ?_, fun h => ?_⟩⟩
  · rw [withKey_key, nextRoundKey_byte, getLsbD_rotl3]
  · rw [execTimes_knext, keyForward_eight, withKey_self]
  · rw [nextRoundKey_of_uniform h, withKey_self]

/-- Settles O19: one step backward on `KEY`, which is seven steps forward. -/
theorem kprevRotatesKeyBytesRight : Obligations.KprevRotatesKeyBytesRight := by
  refine ⟨decode_encode .kprev, fun s => ⟨_, exec_kprev s, rfl, rfl, fun i j => ?_, ?_, exec_knext_after_kprev s,
    ⟨_, exec_knext s, exec_kprev_after_knext s⟩, fun h => ?_⟩⟩
  · rw [withKey_key, previousRoundKey_byte, getLsbD_rotr3]
  · rw [execTimes_knext, keyForward_seven]
  · rw [previousRoundKey_of_uniform h, withKey_self]

end Sys2Proof.Machine

/-! ## The multi-round engine (spec/44_engine.md R145 to R149) -/

namespace Sys2Proof.Machine

/-! ### The rounds of one block, in either direction

`ENC` and `DEC` differ in their round and in their step of the schedule alone, so both are taken as one function of the two. -/

/-- One round with `k`, then `n` more, each with the key one step further: the block and the last key used. -/
def roundsFrom (round : B16 → B16 → B16) (next : B16 → B16) : Nat → B16 → B16 → B16 × B16
  | 0, k, b => (round k b, k)
  | n + 1, k, b =>
    let p := roundsFrom round next n k b
    (round (next p.2) p.1, next p.2)

section
variable (round : B16 → B16 → B16) (next : B16 → B16)

/-- The first round taken off the front, as the loops of R148 run. -/
theorem roundsFrom_succ_front (n : Nat) (k b : B16) :
    roundsFrom round next (n + 1) k b = roundsFrom round next n (next k) (round k b) := by
  induction n with
  | zero => rfl
  | succ n ih => rw [roundsFrom, ih, roundsFrom]

/-- The last key used does not depend on the block. -/
theorem roundsFrom_key (n : Nat) (k b : B16) : (roundsFrom round next n k b).2 = next^[n] k := by
  induction n with
  | zero => rfl
  | succ n ih => rw [roundsFrom, ih, Function.iterate_succ_apply']

end

/-- Rounds that undo the rounds, with a schedule that walks back, end at the first block and the first key. -/
theorem roundsFrom_undo {round round' : B16 → B16 → B16} {next next' : B16 → B16}
    (hround : ∀ k b, round' k (round k b) = b) (hnext : ∀ k, next' (next k) = k) (n : Nat) (k b : B16) :
    roundsFrom round' next' n (roundsFrom round next n k b).2 (roundsFrom round next n k b).1 = (b, k) := by
  induction n with
  | zero => exact congrArg (·, k) (hround k b)
  | succ n ih => rw [roundsFrom_succ_front, roundsFrom, hround, hnext, ih]

/-- `n + 1` rounds of encryption. -/
abbrev encRounds (c : Profile) : Nat → B16 → B16 → B16 × B16 := roundsFrom (roundEncrypt c) nextRoundKey

/-- `n + 1` inverse rounds. -/
abbrev decRounds (c : Profile) : Nat → B16 → B16 → B16 × B16 := roundsFrom (roundDecrypt c) previousRoundKey

theorem encLoop_eq_encRounds (c : Profile) (n : Nat) (k b : B16) : encLoop c n k (roundEncrypt c k b) = encRounds c n k b := by
  induction n generalizing k b with
  | zero => rfl
  | succ n ih =>
    rw [encLoop, ih]
    exact (roundsFrom_succ_front ..).symm

theorem decLoop_eq_decRounds (c : Profile) (n : Nat) (k b : B16) : decLoop c n k (roundDecrypt c k b) = decRounds c n k b := by
  induction n generalizing k b with
  | zero => rfl
  | succ n ih =>
    rw [decLoop, ih]
    exact (roundsFrom_succ_front ..).symm

theorem encBlock_succ (c : Profile) (k b : B16) (n : Nat) : encBlock c k b (n + 1) = some (encRounds c n k b) :=
  congrArg some (encLoop_eq_encRounds c n k b)

theorem decBlock_succ (c : Profile) (k b : B16) (n : Nat) : decBlock c k b (n + 1) = some (decRounds c n k b) :=
  congrArg some (decLoop_eq_decRounds c n k b)

/-- The last subkey of the rounds is the key of the last round (R137). -/
theorem encRounds_key (c : Profile) (n : Nat) (k b : B16) : (encRounds c n k b).2 = keyForward k n :=
  (roundsFrom_key ..).trans (keyForward_eq_iterate k n).symm

theorem decRounds_key (c : Profile) (n : Nat) (k b : B16) : (decRounds c n k b).2 = keyBackward k n :=
  (roundsFrom_key ..).trans (keyBackward_eq_iterate k n).symm

/-- The block's half of R153: the inverse rounds, from the last key on, give back the block and the key. -/
theorem decRounds_encRounds (c : Profile) (n : Nat) (k b : B16) :
    decRounds c n (encRounds c n k b).2 (encRounds c n k b).1 = (b, k) :=
  roundsFrom_undo (roundDecrypt_roundEncrypt c) previousRoundKey_nextRoundKey n k b

/-- The same with the round key named from the first key. -/
theorem decRounds_keyForward_encRounds (c : Profile) (n : Nat) (k b : B16) :
    decRounds c n (keyForward k n) (encRounds c n k b).1 = (b, k) := by
  rw [← encRounds_key c n k b, decRounds_encRounds]

/-- Settles O34: the last key of each walk, and one more round at its end. -/
theorem blockRoundsFollowTheSchedule : Obligations.BlockRoundsFollowTheSchedule := by
  intro c k b
  refine ⟨rfl, rfl, rfl, rfl, fun r hr => ?_⟩
  obtain ⟨n, rfl⟩ := Nat.exists_eq_add_of_le' hr
  exact ⟨⟨_, _, encBlock_succ c k b n, congrArg some (encRounds_key c n k b).symm, encBlock_succ c k b (n + 1)⟩,
    _, _, decBlock_succ c k b n, decRounds_key c n k b, decBlock_succ c k b (n + 1)⟩

/-! ### The commands (R145 to R147) -/

/-- Settles O11: the command word 0, which the port refuses while a fault is latched. -/
theorem nopChangesNothing : Obligations.NopChangesNothing := by
  refine ⟨decode_encode .nop, exec_eq_commandAt .nop, fun s rest h => ?_⟩
  rw [step_action s _ rest h, transact_cmd]
  cases hf : s.status.fault with
  | true => exact cmdWrite_faulted _ _ hf
  | false => exact cmdWrite_command _ .nop _ hf (decode_encode .nop)

/-- The registers that a command's rounds write, given the block and the last key. -/
def recordRounds (p : B16 × B16) (s : State) : State := recordRound p.1 p.2 (generate Config.profile p.2) s

/-- The command writes the block and the last key that `rounds` gives of `KEY` and `BLK`, with that key's vector, and nothing
else. -/
def RunsRoundsAs (i : Instr) (rounds : B16 → B16 → B16 × B16) : Prop :=
  ∀ s, exec i s = .next (recordRounds (rounds s.key s.blk) s)

/-- A legal round count is one round and some more. -/
theorem exists_toNat_eq_succ {r : BitVec 16} (h : r ≠ 0) : ∃ n, r.toNat = n + 1 :=
  Nat.exists_eq_succ_of_ne_zero fun h0 => h (BitVec.eq_of_toNat_eq h0)

theorem runsRoundsAs_enc {r : BitVec 16} {n : Nat} (hr : r.toNat = n + 1) :
    RunsRoundsAs (.enc r) (encRounds Config.profile n) := by
  intro s
  rw [exec_eq_commandAt, commandAt, encAt, roundCount, hr, encBlock_succ]
  rfl

theorem runsRoundsAs_dec {r : BitVec 16} {n : Nat} (hr : r.toNat = n + 1) :
    RunsRoundsAs (.dec r) (decRounds Config.profile n) := by
  intro s
  rw [exec_eq_commandAt, commandAt, decAt, roundCount, hr, decBlock_succ]
  rfl

/-- Settles O35: the copy of `SK` hands the last key to the inverse rounds. -/
theorem decAfterEncRestoresTheBlock : Obligations.DecAfterEncRestoresTheBlock := by
  intro s r hr
  obtain ⟨n, hn⟩ := exists_toNat_eq_succ hr
  refine ⟨_, _, runsRoundsAs_enc hn s, runsRoundsAs_dec hn _, ?_⟩
  simp only [recordRounds, recordRound_blk, recordRound_sk, recordRound_perm, decRounds_encRounds, and_self]

end Sys2Proof.Machine

/-! ## Messages (spec/44_engine.md R150 to R154) -/

namespace Sys2Proof.Machine

/-! ### Padding and the partition into blocks (R150) -/

theorem length_pad16 (m : Bytes) : (pad16 m).length = 16 * nblocks m := by
  simp only [pad16, nblocks, List.length_append, List.length_replicate]
  omega

/-- The number of blocks is the message's length over 16, rounded up. -/
theorem nblocks_bounds (m : Bytes) : m.length ≤ 16 * nblocks m ∧ 16 * nblocks m < m.length + 16 := by
  simp only [nblocks]
  omega

theorem pad16_of_aligned {m : Bytes} (h : m.length % 16 = 0) : pad16 m = m := by simp [pad16, h]

/-- The bytes of a block that the message has. -/
theorem toList_blockAt {m : Bytes} {n : Nat} (h : n < nblocks m) :
    (blockAt m n).toList = ((pad16 m).drop (16 * n)).take 16 := by
  have hlen : (pad16 m).length = 16 * nblocks m := length_pad16 m
  refine List.ext_getElem ?_ fun i hi _ => ?_
  · simp only [Vector.length_toList, List.length_take, List.length_drop]
    omega
  · rw [Vector.length_toList] at hi
    have hin : 16 * n + i < (pad16 m).length := by omega
    simp [blockAt, List.getD_eq_getElem?_getD, hin]

/-- Pieces of 16 bytes in order are the bytes up to the last piece. -/
theorem flatMap_pieces (l : Bytes) (n : Nat) :
    ((List.range n).flatMap fun j => (l.drop (16 * j)).take 16) = l.take (16 * n) := by
  induction n with
  | zero => rfl
  | succ n ih => simp [List.range_succ, ih, Nat.mul_succ, List.take_add]

/-- The blocks of a message concatenate to the padded message. -/
theorem bytesOfBlocks_blocksOf (m : Bytes) : bytesOfBlocks (blocksOf m) = pad16 m := by
  calc bytesOfBlocks (blocksOf m) = (List.range (nblocks m)).flatMap fun n => (blockAt m n).toList := by
        rw [bytesOfBlocks, blocksOf, List.flatMap_map]
    _ = (List.range (nblocks m)).flatMap fun n => ((pad16 m).drop (16 * n)).take 16 :=
        List.flatMap_congr fun n hn => toList_blockAt (List.mem_range.1 hn)
    _ = pad16 m := by rw [flatMap_pieces, ← length_pad16, List.take_length]

/-- Settles O39: the length, the zero tail and the pieces of the padded message. -/
theorem paddingAndPartition : Obligations.PaddingAndPartition := by
  intro m
  obtain ⟨hle, hlt⟩ := nblocks_bounds m
  refine ⟨length_pad16 m, hle, hlt, List.take_left, fun b hb => ?_, pad16_of_aligned, fun n hn => toList_blockAt hn,
    bytesOfBlocks_blocksOf m⟩
  rw [pad16, List.drop_left] at hb
  exact List.eq_of_mem_replicate hb

/-! ### Bytes made of blocks -/

theorem bytesOfBlocks_cons (b : B16) (bs : List B16) : bytesOfBlocks (b :: bs) = b.toList ++ bytesOfBlocks bs := rfl

theorem bytesOfBlocks_singleton (b : B16) : bytesOfBlocks [b] = b.toList := List.append_nil _

theorem length_bytesOfBlocks (bs : List B16) : (bytesOfBlocks bs).length = 16 * bs.length := by
  induction bs with
  | nil => rfl
  | cons b bs ih =>
    rw [bytesOfBlocks_cons, List.length_append, ih, Vector.length_toList, List.length_cons]
    omega

/-- A sequence of blocks can be read off its bytes. -/
theorem bytesOfBlocks_injective : Function.Injective bytesOfBlocks := by
  intro as
  induction as with
  | nil =>
    intro bs h
    have hlen := congrArg List.length h
    rw [length_bytesOfBlocks, length_bytesOfBlocks] at hlen
    exact (List.length_eq_zero_iff.1 (by simpa using hlen.symm)).symm
  | cons a as ih =>
    intro bs h
    cases bs with
    | nil => simpa [length_bytesOfBlocks] using congrArg List.length h
    | cons b bs =>
      obtain ⟨hhead, htail⟩ := List.append_inj h (by simp)
      rw [Vector.toList_inj.1 hhead, ih htail]

/-- Bytes made of blocks need no padding, so their partition is these blocks. -/
theorem blocksOf_bytesOfBlocks (bs : List B16) : blocksOf (bytesOfBlocks bs) = bs := by
  apply bytesOfBlocks_injective
  rw [bytesOfBlocks_blocksOf, pad16_of_aligned]
  rw [length_bytesOfBlocks, Nat.mul_mod_right]

/-! ### A function applied to every block -/

/-- The message made of `f` of every block of `m`. -/
def mapBlocks (f : B16 → B16) (m : Bytes) : Bytes := bytesOfBlocks ((blocksOf m).map f)

theorem blocksOf_mapBlocks (f : B16 → B16) (m : Bytes) : blocksOf (mapBlocks f m) = (blocksOf m).map f :=
  blocksOf_bytesOfBlocks _

theorem mapBlocks_mapBlocks (f g : B16 → B16) (m : Bytes) : mapBlocks g (mapBlocks f m) = mapBlocks (fun b => g (f b)) m := by
  rw [mapBlocks, blocksOf_mapBlocks, List.map_map]
  rfl

theorem mapBlocks_id (m : Bytes) : mapBlocks (fun b => b) m = pad16 m := by
  rw [mapBlocks, List.map_id', bytesOfBlocks_blocksOf]

/-- A message of one block. -/
theorem mapBlocks_toList (f : B16 → B16) (b : B16) : mapBlocks f b.toList = (f b).toList := by
  rw [← bytesOfBlocks_singleton b, mapBlocks, blocksOf_bytesOfBlocks, ← bytesOfBlocks_singleton (f b)]
  rfl

theorem length_blocksOf (m : Bytes) : (blocksOf m).length = nblocks m := by simp [blocksOf]

theorem length_mapBlocks (f : B16 → B16) (m : Bytes) : (mapBlocks f m).length = 16 * nblocks m := by
  rw [mapBlocks, length_bytesOfBlocks, List.length_map, length_blocksOf]

theorem nblocks_mapBlocks (f : B16 → B16) (m : Bytes) : nblocks (mapBlocks f m) = nblocks m := by
  rw [← length_blocksOf, blocksOf_mapBlocks, List.length_map, length_blocksOf]

theorem getElem?_blocksOf {m : Bytes} {n : Nat} (h : n < nblocks m) : (blocksOf m)[n]? = some (blockAt m n) := by
  simp [blocksOf, h]

theorem blockAt_mapBlocks (f : B16 → B16) {m : Bytes} {n : Nat} (h : n < nblocks m) :
    blockAt (mapBlocks f m) n = f (blockAt m n) := by
  apply Option.some.inj
  rw [← getElem?_blocksOf ((nblocks_mapBlocks f m).symm ▸ h), blocksOf_mapBlocks, List.getElem?_map, getElem?_blocksOf h]
  rfl

/-! ### `encrypt` and `decrypt` (R151) -/

theorem encryptMore_eq_mapBlocks (c : Profile) (n : Nat) (k : B16) (m : Bytes) :
    encryptMore c n k m = mapBlocks (fun b => (encRounds c n k b).1) m := by
  induction n generalizing k m with
  | zero => rfl
  | succ n ih =>
    have hfirst : encryptOnce c k m = mapBlocks (roundEncrypt c k) m := rfl
    simp only [encryptMore, ih, hfirst, mapBlocks_mapBlocks, encRounds, roundsFrom_succ_front]

theorem decryptMore_eq_mapBlocks (c : Profile) (n : Nat) (k : B16) (m : Bytes) :
    decryptMore c n k m = mapBlocks (fun b => (decRounds c n k b).1) m := by
  induction n generalizing k m with
  | zero => rfl
  | succ n ih =>
    have hfirst : decryptOnce c k m = mapBlocks (roundDecrypt c k) m := rfl
    simp only [decryptMore, ih, hfirst, mapBlocks_mapBlocks, decRounds, roundsFrom_succ_front]

/-- Encryption round by round over the message is encryption of every block on its own. -/
theorem encrypt_succ (c : Profile) (k : B16) (m : Bytes) (n : Nat) :
    encrypt c k m (n + 1) = some (mapBlocks (fun b => (encRounds c n k b).1) m) :=
  congrArg some (encryptMore_eq_mapBlocks c n k m)

theorem decrypt_succ (c : Profile) (k : B16) (m : Bytes) (n : Nat) :
    decrypt c k m (n + 1) = some (mapBlocks (fun b => (decRounds c n k b).1) m) :=
  congrArg some (decryptMore_eq_mapBlocks c n k m)

/-- Settles O37: both functions apply one function of blocks to every block. -/
theorem messageIsBlockwise : Obligations.MessageIsBlockwise := by
  intro c k m r hr
  obtain ⟨n, rfl⟩ := Nat.exists_eq_add_of_le' hr
  refine ⟨⟨_, encrypt_succ c k m n, nblocks_mapBlocks _ m, fun j hj => ⟨(encRounds c n k (blockAt m j)).2, ?_⟩⟩,
    _, decrypt_succ c k m n, nblocks_mapBlocks _ m, fun j hj => ⟨(decRounds c n k (blockAt m j)).2, ?_⟩⟩
  · rw [encBlock_succ, blockAt_mapBlocks _ hj]
  · rw [decBlock_succ, blockAt_mapBlocks _ hj]

/-- Settles O38: a function applied to every block keeps the number of blocks. -/
theorem outputLengthIsRoundedUp : Obligations.OutputLengthIsRoundedUp := by
  intro c k m r hr
  obtain ⟨n, rfl⟩ := Nat.exists_eq_add_of_le' hr
  refine ⟨_, _, encrypt_succ c k m n, decrypt_succ c k m n, ?_⟩
  obtain ⟨hle, hlt⟩ := nblocks_bounds m
  rw [length_mapBlocks, length_mapBlocks]
  omega

/-- The message's half of R153: block by block, the inverse rounds undo the rounds. -/
theorem decrypt_encrypt (c : Profile) (k : B16) (m : Bytes) (n : Nat) :
    ∃ e, encrypt c k m (n + 1) = some e ∧ decrypt c (keyForward k n) e (n + 1) = some (pad16 m) := by
  refine ⟨_, encrypt_succ c k m n, ?_⟩
  simp only [decrypt_succ, mapBlocks_mapBlocks, decRounds_keyForward_encRounds, mapBlocks_id]

/-- Settles O36: the block's half, and the message's half at the derived key. -/
theorem messageRoundTrip : Obligations.MessageRoundTrip := by
  refine ⟨fun c k b r hr => ?_, fun c p m r hp hr => ?_⟩
  · obtain ⟨n, rfl⟩ := Nat.exists_eq_add_of_le' hr
    refine ⟨(encRounds c n k b).1, keyForward k n, rfl, ?_, ?_⟩
    · rw [encBlock_succ, ← encRounds_key c n k b]
    · rw [decBlock_succ, decRounds_keyForward_encRounds]
  · obtain ⟨n, rfl⟩ := Nat.exists_eq_add_of_le' hr
    obtain ⟨e, he, hd⟩ := decrypt_encrypt c (keyFromWords (c.kdfWords p) p) m n
    exact ⟨_, _, e, derive_of_le c hp, rfl, he, hd⟩

/-! ### `ENC` and `DEC` compute them (R146, R147) -/

/-- Settles O20: the registers are those of the rounds of one block, which is also a message. -/
theorem encRunsItsRounds : Obligations.EncRunsItsRounds := by
  refine fun s r => ⟨decode_encode (.enc r), fun hr => ?_, ?_⟩
  · obtain ⟨n, hn⟩ := exists_toNat_eq_succ hr
    have hexec := runsRoundsAs_enc hn s
    rw [hn]
    exact ⟨_, hexec, rfl, encBlock_succ .., congrArg some (encRounds_key ..).symm,
      (encrypt_succ ..).trans (congrArg some (mapBlocks_toList ..)),
      fun h1 => by rw [← exec_enc_one, ← h1, hexec], rfl, rfl⟩
  · rintro rfl
    rw [exec_eq_commandAt, commandAt, encAt_zero, raiseFault_frame]

/-- Settles O21: the inverse rounds, whose last key is `KEY` stepped back. -/
theorem decRunsItsRounds : Obligations.DecRunsItsRounds := by
  refine fun s r => ⟨decode_encode (.dec r), fun hr => ?_, ?_⟩
  · obtain ⟨n, hn⟩ := exists_toNat_eq_succ hr
    have hexec := runsRoundsAs_dec hn s
    have hkey : (decRounds Config.profile n s.key s.blk).2 = keyBackward s.key n := decRounds_key ..
    rw [hn]
    refine ⟨_, hexec, rfl, decBlock_succ .., hkey, (decrypt_succ ..).trans (congrArg some (mapBlocks_toList ..)),
      fun h1 => by rw [← exec_dec_one, ← h1, hexec], fun k hk => ?_, rfl, rfl⟩
    have hfirst : keyForward k n = s.key := Option.some.inj hk
    exact hkey.trans (hfirst ▸ keyBackward_keyForward k n)
  · rintro rfl
    rw [exec_eq_commandAt, commandAt, decAt_zero, raiseFault_frame]

end Sys2Proof.Machine

/-! ## The host procedure for a message (spec/44_engine.md R152) -/

namespace Sys2Proof.Machine

/-- What the host reads in two sequences of answers, one after the other. -/
theorem wordsRead_append (rs qs : List (Option Reply)) : wordsRead (rs ++ qs) = wordsRead rs ++ wordsRead qs := by
  induction rs with
  | nil => rfl
  | cons r rs ih => rcases r with _ | _ | v | _ <;> simp [wordsRead, ih]

/-- The bytes the host reads from the port's answers. -/
def bytesRead (rs : List (Option Reply)) : Bytes := bytesOfWords (wordsRead rs)

theorem bytesRead_append (rs qs : List (Option Reply)) : bytesRead (rs ++ qs) = bytesRead rs ++ bytesRead qs := by
  rw [bytesRead, wordsRead_append]
  exact List.flatMap_append

/-- The answers to a read of a 16-byte register. -/
theorem bytesRead_words (x : B16) : bytesRead (words4.map fun w => some (.data (wordOf x w))) = x.toList :=
  bytesOfWords_wordOf x

section
variable {i : Instr} {rounds : B16 → B16 → B16 × B16} (h : RunsRoundsAs i rounds)
include h

/-- The command, issued with nothing latched. -/
theorem RunsRoundsAs.transact_cmd {s : State} (hf : s.status.fault = false) :
    transact (cmd i) s = .next (recordRounds (rounds s.key s.blk) (withReply .okay s)) := by
  rw [← withReply_key s .okay, ← withReply_blk s .okay, ← h, exec_eq_commandAt]
  exact cmdWrite_command _ i s hf (decode_encode i)

/-- One block through the hardware: what is read back is its rounds, and the key and the latch are as before. -/
theorem RunsRoundsAs.runActions_blockActions {s : State} (hf : s.status.fault = false) (b : B16) :
    ∃ t rs, runActions (blockActions i b) s = some (t, rs) ∧ bytesRead rs = (rounds s.key b).1.toList ∧
      t.key = s.key ∧ t.status = s.status := by
  have hload := (holdsRegister_blk s).runActions_loadWords b s.blk s.reply
  have hcmd : runActions [cmd i] { s with blk := b, reply := some .okay } =
      some (recordRounds (rounds s.key b) { s with blk := b, reply := some .okay }, [some .okay]) :=
    runActions_cons_of_next (h.transact_cmd (s := { s with blk := b, reply := some .okay }) hf) rfl
  have hread := runActions_readWords (reg := .blk) (x := (rounds s.key b).1)
    (s := recordRounds (rounds s.key b) { s with blk := b, reply := some .okay }) fun _ _ => rfl
  exact ⟨_, _, runActions_append_of_some (runActions_append_of_some hload hcmd) hread, bytesRead_words _, rfl, rfl⟩

/-- The blocks one by one. -/
theorem RunsRoundsAs.runActions_blocks (bs : List B16) {s : State} (hf : s.status.fault = false) :
    ∃ t rs, runActions (bs.flatMap (blockActions i)) s = some (t, rs) ∧
      bytesRead rs = bytesOfBlocks (bs.map fun b => (rounds s.key b).1) ∧ t.key = s.key ∧ t.status = s.status := by
  induction bs generalizing s with
  | nil => exact ⟨s, [], rfl, rfl, rfl, rfl⟩
  | cons b bs ih =>
    obtain ⟨t, rs, hrun, hbytes, hkey, hstatus⟩ := h.runActions_blockActions hf b
    obtain ⟨u, qs, hrest, hmore, hukey, hustatus⟩ := ih (hstatus ▸ hf)
    refine ⟨u, rs ++ qs, runActions_append_of_some hrun hrest, ?_, hukey.trans hkey, hustatus.trans hstatus⟩
    rw [bytesRead_append, hbytes, hmore, hkey]
    rfl

/-- The whole procedure, the key loaded first. -/
theorem RunsRoundsAs.runActions_messageActions {s : State} (hf : s.status.fault = false) (k : B16) (m : Bytes) :
    ∃ t rs, runActions (messageActions i k m) s = some (t, rs) ∧
      bytesRead rs = mapBlocks (fun b => (rounds k b).1) m ∧ t.key = k ∧ t.status = s.status := by
  have hload := (holdsRegister_key s).runActions_loadWords k s.key s.reply
  obtain ⟨t, rs, hrun, hbytes, hkey, hstatus⟩ :=
    h.runActions_blocks (blocksOf m) (s := { s with key := k, reply := some .okay }) hf
  exact ⟨t, _, runActions_append_of_some hload hrun, (bytesRead_append ..).trans hbytes, hkey, hstatus⟩

end

/-- Settles O57: the procedure reads the rounds of every block, which is what the message functions give. -/
theorem hostProcedureComputesMessages : Obligations.HostProcedureComputesMessages := by
  intro s k m r hf hr
  obtain ⟨n, hn⟩ := exists_toNat_eq_succ hr
  obtain ⟨t, rs, hrun, hbytes, hkey, hstatus⟩ := (runsRoundsAs_enc hn).runActions_messageActions hf k m
  obtain ⟨u, qs, hrun', hbytes', hkey', hstatus'⟩ := (runsRoundsAs_dec hn).runActions_messageActions hf k m
  rw [hn]
  exact ⟨⟨t, rs, _, hrun, encrypt_succ .., hbytes, hkey, hstatus⟩,
    u, qs, _, hrun', decrypt_succ .., hbytes', hkey', hstatus'⟩

end Sys2Proof.Machine

/-! ## Faults and the interrupt (spec/60_exceptions.md) -/

namespace Sys2Proof.Machine

/-! ### A write to `CMD` -/

/-- The decoder rejects exactly the words of R167, by the numbers of their fields. -/
theorem exists_illegal_iff (w : Word) :
    (∃ why, decode w = .illegal why) ↔
      w.toNat / 2 ^ 24 ≠ 0 ∨ w.toNat % 256 > 8 ∨ (w.toNat % 256 ≤ 6 ∧ w.toNat / 256 % 65536 ≠ 0) := by
  rw [decode, decodeFields_illegal_iff, ← fieldZ_toNat, ← fieldOP_toNat, ← fieldR_toNat]
  simp only [ne_eq, gt_iff_lt, BitVec.toNat_eq, BitVec.lt_def, BitVec.le_def]
  rfl

/-- A command leaves the latch alone, or is `DERIVE` with too long a passphrase, or `ENC` or `DEC` with no rounds
(R166, R168). -/
theorem commandAt_fault_cases (c : Profile) (i : Instr) (s : State) :
    ((commandAt c i s).status = s.status ∧ (commandAt c i s).finfo = s.finfo) ∨
    (i = .derive ∧ s.plen.toNat > 16 ∧ commandAt c i s = raiseFault .keylen s.plen s) ∨
    ((i = .enc 0 ∨ i = .dec 0) ∧ commandAt c i s = raiseFault .badrounds (encode i) s) := by
  rcases commandAt_cases c i s with h | hkeylen | hbadrounds | ⟨-, k, h⟩ | ⟨-, h⟩ | ⟨-, x, k, h⟩
  · exact .inl (by simp [h])
  · exact .inr (.inl hkeylen)
  · exact .inr (.inr hbadrounds)
  · exact .inl (by simp [h])
  · exact .inl (by simp [h])
  · exact .inl (by simp [h])

/-- `ENC` and `DEC` with no rounds latch `BADROUNDS` with their word and change nothing else (R168). -/
theorem exec_noRounds {i : Instr} (hi : i = .enc 0 ∨ i = .dec 0) (s : State) :
    exec i s = .next { s with status := { fault := true, cause := some .badrounds }, finfo := encode i } := by
  rcases hi with rfl | rfl <;> rfl

section

variable {s : State} {w : Word} {rest : List HostAction} (h : s.pending = .write 0x00 4 w :: rest)

include h

theorem step_cmd_faulted (hf : s.status.fault = true) :
    step s = .next { s with pending := rest, reply := some .err } :=
  (step_action s _ rest h).trans (cmdWrite_faulted w (withPending rest s) hf)

theorem step_cmd_illegal {why : Reject} (hf : s.status.fault = false) (hd : decode w = .illegal why) :
    step s = .next (raiseFault .illcmd w { s with pending := rest, reply := some .okay }) :=
  (step_action s _ rest h).trans (cmdWrite_illegal w why (withPending rest s) hf hd)

theorem step_cmd_command {i : Instr} (hf : s.status.fault = false) (hd : decode w = .command i) :
    step s = .next (commandAt Config.profile i { s with pending := rest, reply := some .okay }) :=
  (step_action s _ rest h).trans (cmdWrite_command w i (withPending rest s) hf hd)

/-- An accepted write to `CMD` is a fault entry, or leaves the latch as it was; the cause fixes what is recorded
(R172, R173). -/
theorem step_cmd_raises_or_keeps (hf : s.status.fault = false) :
    (∃ c v, step s = .next (raiseFault c v { s with pending := rest, reply := some .okay }) ∧
      ((c = .keylen ∧ v = s.plen) ∨ ((c = .illcmd ∨ c = .badrounds) ∧ v = w))) ∨
    ∃ t, step s = .next t ∧ t.status = s.status := by
  cases hd : decode w with
  | illegal why => exact .inl ⟨.illcmd, w, step_cmd_illegal h hf hd, .inr ⟨.inl rfl, rfl⟩⟩
  | command i =>
    have hstep := step_cmd_command h hf hd
    rcases commandAt_fault_cases Config.profile i { s with pending := rest, reply := some .okay } with
      ⟨hst, -⟩ | ⟨-, -, hk⟩ | ⟨-, hb⟩
    · exact .inr ⟨_, hstep, hst⟩
    · exact .inl ⟨.keylen, s.plen, hk ▸ hstep, .inl ⟨rfl, rfl⟩⟩
    · have hword : encode i = w := ((decode_eq_command_iff i w).1 hd).symm
      exact .inl ⟨.badrounds, encode i, hb ▸ hstep, .inr ⟨.inr rfl, hword⟩⟩

end

/-- Settles O4: a clause for the latch, one for the decoder, one for each check of an operand, and the rest. -/
theorem commandCheckOrder : Obligations.CommandCheckOrder := by
  intro s w rest h illegal
  refine ⟨step_cmd_faulted h, fun hf hi => ?_, fun hf hw => ?_, fun hf hw hl => ?_, fun hf hi h7 h8 hl => ?_⟩
  · obtain ⟨why, hd⟩ := (exists_illegal_iff w).2 hi
    exact step_cmd_illegal h hf hd
  · rcases hw with rfl | rfl
    · exact (stepRunsDecodedCommand s _ (.enc 0) rest h hf (decode_encode (.enc 0))).trans (exec_noRounds (.inl rfl) _)
    · exact (stepRunsDecodedCommand s _ (.dec 0) rest h hf (decode_encode (.dec 0))).trans (exec_noRounds (.inr rfl) _)
  · subst hw
    exact (stepRunsDecodedCommand s _ .derive rest h hf (decode_encode .derive)).trans (exec_derive_of_gt hl)
  · cases hd : decode w with
    | illegal why => exact absurd ((exists_illegal_iff w).1 ⟨why, hd⟩) hi
    | command i =>
      obtain rfl := (decode_eq_command_iff i w).1 hd
      refine ⟨i, _, rfl, stepRunsDecodedCommand s _ i rest h hf hd, step_cmd_command h hf hd, ?_⟩
      rcases commandAt_fault_cases Config.profile i { s with pending := rest, reply := some .okay } with
        ⟨hst, hfi⟩ | ⟨rfl, hgt, -⟩ | ⟨rfl | rfl, -⟩
      · exact ⟨hst, hfi, commandAt_reply ..⟩
      · exact absurd (hl rfl) (Nat.not_le.2 hgt)
      · exact absurd rfl h7
      · exact absurd rfl h8

/-- Settles O46: the write has entered a fault, since with nothing latched it would have kept the clear latch. -/
theorem faultEntryIsPrecise : Obligations.FaultEntryIsPrecise := by
  intro s t w rest h hf hstep hft
  rcases step_cmd_raises_or_keeps h hf with ⟨c, v, hr, hcause⟩ | ⟨u, hu, hst⟩
  · obtain rfl := Host.Outcome.next.inj (hstep.symm.trans hr)
    refine ⟨rfl, Bool.true_and _, ?_⟩
    simpa using hcause
  · obtain rfl := Host.Outcome.next.inj (hstep.symm.trans hu)
    simp [hst, hf] at hft

/-! ### A write to `STATUS` and a reset (R175) -/

theorem statusWrite_of_clears {v : Word} {s : State} (hf : s.status.fault = true) (hv : v.getLsbD 0 = true) :
    statusWrite v s = clearFault s := if_pos (by simp [clearsFault, hf, hv])

theorem statusWrite_of_keeps {v : Word} {s : State} (h : s.status.fault = false ∨ v.getLsbD 0 = false) :
    statusWrite v s = s := by
  rw [statusWrite, clearsFault]
  rcases h with hf | hv
  · simp [hf]
  · rw [hv, Bool.and_false]
    rfl

theorem step_write_status {s : State} {v : Word} {rest : List HostAction} (h : s.pending = .write 0x04 4 v :: rest) :
    step s = .next (withReply .okay (statusWrite v (withPending rest s))) :=
  step_write_reg .status h rfl

/-- Settles O49: the reset state, and the two cases of a write to `STATUS`. -/
theorem statusWriteClearsTheFault : Obligations.StatusWriteClearsTheFault := by
  refine ⟨fun s rest h => ⟨_, step_action s _ rest h, rfl, rfl⟩, fun s v rest h => ⟨fun hf hv => ?_, fun hk => ?_⟩⟩
  · have hstep := step_write_status h
    rw [statusWrite_of_clears (s := withPending rest s) hf hv] at hstep
    exact ⟨_, hstep, rfl, rfl⟩
  · rw [step_write_status h, statusWrite_of_keeps (s := withPending rest s) hk]
    rfl

/-! ### Every other access while a fault is latched (R174) -/

/-- Only the reads of the latch's own two registers see it. -/
theorem regRead_clearFault {r : RegName} (hs : r ≠ .status) (hf : r ≠ .finfo) (s : State) :
    regRead r (clearFault s) = regRead r s := by
  cases r with
  | status => exact absurd rfl hs
  | finfo => exact absurd rfl hf
  | _ => rfl

theorem readReply_clearFault {off : BitVec 8} (hs : off ≠ 0x04) (hf : off ≠ 0x0C) (n : Nat) (s : State) :
    readReply off n (clearFault s) = readReply off n s := by
  unfold readReply
  cases hr : regAt off with
  | none => rfl
  | some r =>
    obtain rfl := offsetOf_of_regAt off r hr
    have hstatus : r ≠ .status := fun h => hs (congrArg offsetOf h)
    have hfinfo : r ≠ .finfo := fun h => hf (congrArg offsetOf h)
    simp only [regRead_clearFault hstatus hfinfo]

/-- A register write stores the same with nothing latched, but for the latch itself. -/
theorem regWrite_clearFault {r : RegName} {v : Word} {s t : State} (h : regWrite r v s = some t) :
    ∃ u, regWrite r v (clearFault s) = some u ∧ t = { u with status := t.status, finfo := t.finfo } := by
  cases r with
  | status =>
    cases h
    refine ⟨_, rfl, ?_⟩
    rw [statusWrite_of_keeps (s := clearFault s) (.inl rfl), statusWrite]
    split <;> rfl
  | _ => cases h <;> exact ⟨_, rfl, rfl⟩

/-- An action other than a write to `CMD` does the same with nothing latched, but for the latch and a read of it. -/
theorem transact_clearFault {a : HostAction} (s : State) (ha : ∀ w, a ≠ .write 0x00 4 w) :
    ∃ t u, transact a s = .next t ∧ transact a (clearFault s) = .next u ∧
      t = { u with status := t.status, finfo := t.finfo, reply := t.reply } ∧
      ((∀ n, a ≠ .read 0x04 n ∧ a ≠ .read 0x0C n) → t.reply = u.reply) := by
  cases a with
  | reset => exact ⟨_, _, rfl, rfl, rfl, fun _ => rfl⟩
  | read off n =>
    refine ⟨_, _, rfl, rfl, rfl, fun hlatch => ?_⟩
    obtain ⟨hstatus, hfinfo⟩ := hlatch n
    have hanswer : readReply off n (clearFault s) = readReply off n s :=
      readReply_clearFault (by rintro rfl; exact hstatus rfl) (by rintro rfl; exact hfinfo rfl) n s
    exact congrArg some hanswer.symm
  | write off n v =>
    rcases noRegisterAt_or_offsetOf off n with hno | ⟨r, rfl, rfl⟩
    · exact ⟨_, _, transact_write_noRegister v s hno, transact_write_noRegister v _ hno, rfl, fun _ => rfl⟩
    rcases regWrite_cases r v s with rfl | ⟨hro, -⟩ | ⟨-, -, t, ht⟩
    · exact absurd rfl (ha v)
    · exact ⟨_, _, transact_write_readOnly v s hro, transact_write_readOnly v _ hro, rfl, fun _ => rfl⟩
    · obtain ⟨u, hu, htu⟩ := regWrite_clearFault ht
      exact ⟨_, _, transact_write_reg r s t v ht, transact_write_reg r _ u v hu, congrArg (withReply .okay) htu,
        fun _ => rfl⟩

/-- Settles O48: the refused write to `CMD`, and any other action beside itself with the latch cleared. -/
theorem faultedStateRefusesCommandsOnly : Obligations.FaultedStateRefusesCommandsOnly := by
  refine ⟨fun s w rest hf h => step_cmd_faulted h hf, fun s a rest _ h ha => ?_⟩
  obtain ⟨t, u, ht, hu, hagree⟩ := transact_clearFault (withPending rest s) ha
  exact ⟨t, u, (step_action s a rest h).trans ht, (step_action (clearFault s) a rest h).trans hu, hagree⟩

/-! ### The interrupt (R177) -/

/-- Bit 0 of `STATUS` is `FAULT`: the cause stands above it (R30). -/
theorem getLsbD_statusWord_zero (st : Status) : (statusWord st).getLsbD 0 = st.fault := by
  cases hf : st.fault <;> simp [statusWord, hf]

/-- Bit 0 of `CTRL` is `IE` (R31). -/
theorem getLsbD_ctrlWord_zero (c : Ctrl) : (ctrlWord c).getLsbD 0 = c.ie := by
  cases hi : c.ie <;> simp [ctrlWord, hi]

/-- A write to `STATUS` lowers the interrupt with bit 0 set and leaves it otherwise. -/
theorem irq_statusWrite (v : Word) (s : State) : irq (statusWrite v s) = (irq s && !v.getLsbD 0) := by
  cases hf : s.status.fault with
  | false => simp [statusWrite_of_keeps (.inl hf), irq, hf]
  | true =>
    cases hv : v.getLsbD 0 with
    | false => simp [statusWrite_of_keeps (.inr hv)]
    | true => simp [statusWrite_of_clears hf hv, irq]

/-- Settles O50: the two bits of the bus words, and the actions that reach `FAULT` or `IE`. -/
theorem irqFollowsFaultAndEnable : Obligations.IrqFollowsFaultAndEnable := by
  refine ⟨fun s => ?_, fun s v rest => ⟨fun h => ?_, fun h => ?_, fun h => ?_, fun h => ?_⟩⟩
  · rw [getLsbD_statusWord_zero, getLsbD_ctrlWord_zero, irq]
  · exact ⟨_, step_write_reg .ctrl h rfl, rfl⟩
  · exact ⟨_, step_write_status h, irq_statusWrite v (withPending rest s)⟩
  · exact ⟨_, step_action s .reset rest h, rfl⟩
  · cases hf : s.status.fault with
    | true => exact ⟨_, step_cmd_faulted h hf, by simp [irq, hf]⟩
    | false =>
      have hd : decode 0xFFFFFFFF = .illegal .reservedBitsSet := by decide
      exact ⟨_, step_cmd_illegal h hf hd, Bool.true_and _⟩

end Sys2Proof.Machine

/-! ## Reset and progress (spec/70_reset_and_hazards.md) -/

namespace Sys2Proof.Machine

/-- Settles O10: a command leaves the state `commandAt`, and the step waits or performs the host's next action. -/
theorem nothingStopsTheMachine : Obligations.NothingStopsTheMachine := by
  refine ⟨fun i s => ⟨_, exec_eq_commandAt i s⟩, fun s => ?_⟩
  rcases step_cases s with ⟨-, hidle⟩ | ⟨a, rest, -, hact⟩
  · exact ⟨s, hidle⟩
  · obtain ⟨t, ht, -⟩ := transact_withPending a (withPending rest s)
    exact ⟨t, hact.trans ht⟩

/-! ### What the registers read as right after a reset (R191) -/

/-- No two registers share an offset (R51). -/
theorem offsetOf_injective : Function.Injective offsetOf := fun q r h =>
  Option.some.inj ((regAt_offsetOf q).symm.trans ((congrArg regAt h).trans (regAt_offsetOf r)))

theorem wordOf_zeros : ∀ w : Fin 4, wordOf B16.zeros w = 0 := by decide

theorem wordOfPerm_identity : wordOfPerm Perm.identity = 0x76543210 := by decide

/-- The two permutation registers hold the identity at reset, and every other readable register 0. -/
theorem regRead_reset {r : RegName} (hr : r ≠ .cmd) :
    regRead r State.reset = some (if r = .perm ∨ r = .iperm then 0x76543210 else 0) := by
  cases r with
  | cmd => exact absurd rfl hr
  | perm | iperm => exact congrArg some wordOfPerm_identity
  | pass w | key w | sk w | blk w => exact congrArg some (wordOf_zeros w)
  | status | ctrl | finfo | plen => rfl

/-- Settles O9: the offset is that of a readable register, and the two steps are the reset and the read of it. -/
theorem readsAfterReset : Obligations.ReadsAfterReset := by
  intro s rest off halign hrange hcmd hgap h
  have hmapped : ¬ NoRegisterAt off 4 := by simpa [NoRegisterAt, halign, hrange] using hgap
  obtain ⟨r, rfl, -⟩ := (noRegisterAt_or_offsetOf off 4).resolve_left hmapped
  have hr : r ≠ .cmd := fun hc => hcmd (congrArg offsetOf hc)
  have hperm : offsetOf r = 0x18 ↔ r = .perm := offsetOf_injective.eq_iff (b := .perm)
  have hiperm : offsetOf r = 0x1C ↔ r = .iperm := offsetOf_injective.eq_iff (b := .iperm)
  have hreset : step s = .next (withPending (.read (offsetOf r) 4 :: rest) State.reset) := step_action s .reset _ h
  have hread := step_read_reg (s := withPending (.read (offsetOf r) 4 :: rest) State.reset) r rfl
    ((regRead_withPending r _ State.reset).trans (regRead_reset hr))
  refine ⟨_, (core_run_succ_of_next 1 hreset).trans (core_run_succ_of_next 0 hread), ?_⟩
  rw [if_congr (or_congr hperm hiperm) rfl rfl]

end Sys2Proof.Machine
